-- ==== Sys2Proof/Word.lean ====
section
/-! DEFINITION. The words of the block: 8-bit elements and 6-bit digits (R6, R7, R8 of 00_scope.md). -/

namespace Sys2Proof

/-- An 8-bit element of a buffer: a byte of the plaintext or a character of the string (R6, R7, R41). -/
abbrev Byte := BitVec 8

/-- A digit, an alphabet index, carried on 6 bits; 0 to 44 are legal, 45 to 63 reserved (R8, R63, R73). -/
abbrev Digit := BitVec 6

end Sys2Proof
end

