-- ==== Sys2Proof/Config.lean ====
section
/-! DEFINITION. What an implementation fixes (the parameters of R9, R10, R11) and the free values: opaque constants
without a body, so that nothing can be proved about what they are. -/

namespace Sys2Proof

/-- What the decoder does with a dangling character: the values of `DANGLE_POLICY` (R10, R113). -/
inductive DanglePolicy where
  | ignore
  | reject
deriving DecidableEq, Repr

/-- What the decoder writes for an overflow group: the values of `OVERFLOW_POLICY` (R11, U2).
`wrap` is the spec's fixed decision; `anyValue` is the conservative alternative it allows a model. -/
inductive OverflowPolicy where
  | wrap
  | anyValue
deriving DecidableEq, Repr

/-- The parameters of the step relation (R33). They are carried in State so that a claim about every state is a claim
about every parameter value, and no operation writes them (log 2). -/
structure Params where
  /-- `MAX_LEN`; `none` is the unbounded case that R9 allows a model. -/
  maxLen   : Option Nat
  dangle   : DanglePolicy
  overflow : OverflowPolicy
deriving DecidableEq, Repr

/-- `n <= MAX_LEN`, the range of `LEN` and `POS` (R9). -/
def Params.admits (p : Params) (n : Nat) : Bool :=
  match p.maxLen with
  | none => true
  | some m => decide (n ≤ m)

/-- The four buffer address spaces of R40. -/
inductive Space where
  | encSrc
  | encDst
  | decSrc
  | decDst
deriving DecidableEq, Repr

/-- FREE VALUE: the n-th value the spec leaves unspecified; a register of w bits takes its low w bits (log 19). -/
opaque Config.freeValue : Nat → Nat

/-- FREE VALUE: what an element holds that nothing has written since a reset, given how many resets there have been,
the space and the position (R34, R160: "SRC and DST contents unspecified"; log 4). -/
opaque Config.unwrittenElement : Nat → Space → Nat → Byte

end Sys2Proof
end

