-- ==== Sys2Proof/Syntax.lean ====
section
/-! DEFINITION. The operations of spec/opcode_table.json, one constructor per row. -/

namespace Sys2Proof

/-- The 17 rows of the operation table: seven step operations (format SEL3), two host commands (START) and eight
combinational functions (FUNC). The step operations' operands are implicit: the elements at the cursor (R71). -/
inductive Instr where
  /-- `ENC_DONE`, R104. -/
  | encDone
  /-- `ENC_TAIL`, R103. -/
  | encTail
  /-- `ENC_PAIR`, R102; `x` is bit 0 of `rc`, which the operation ignores (R69, log 21). -/
  | encPair (x : BitVec 1)
  /-- `DEC_DONE`, R114. -/
  | decDone
  /-- `DEC_DANGLE`, R113. -/
  | decDangle
  /-- `DEC_TAIL`, R112. -/
  | decTail
  /-- `DEC_TRIPLET`, R111. -/
  | decTriplet
  /-- `ENCODE`, START on the encoder, R126. -/
  | startEncode
  /-- `DECODE`, START on the decoder, R127. -/
  | startDecode
  /-- `merge16`, R90. -/
  | merge16 (a b : Byte)
  /-- `split16`, R91. -/
  | split16 (n : BitVec 16)
  /-- `pack16`, R92. -/
  | pack16 (n : BitVec 16)
  /-- `pack8`, R94. -/
  | pack8 (n : Byte)
  /-- `unpack16`, R95; the digits least-significant first. -/
  | unpack16 (c d e : Digit)
  /-- `unpack8`, R96; the digits least-significant first. -/
  | unpack8 (c d : Digit)
  /-- `LUT_I2C`, R84. -/
  | lutI2c (idx : Digit)
  /-- `LUT_C2I`, R86. -/
  | lutC2i (ch : Byte)
deriving DecidableEq, Repr

end Sys2Proof
end

