-- ==== Sys2Proof/WellFormed.lean ====
section
/-! DEFINITION. The documented domain of each operation's operands. -/

namespace Sys2Proof

/-- A digit operand is legal: 0 to 44 (R63; 45 to 63 are reserved, R73). -/
def Digit.legal (d : Digit) : Bool := decide (d.toNat < 45)

/-- The operands lie in the domain the spec documents: digits of `unpack16` (R95), `unpack8` (R96) and `LUT_I2C`
(R84, R85) are 0 to 44; every other operand has no reserved value. -/
def Instr.wf : Instr → Bool
  | .encDone => true
  | .encTail => true
  | .encPair _ => true
  | .decDone => true
  | .decDangle => true
  | .decTail => true
  | .decTriplet => true
  | .startEncode => true
  | .startDecode => true
  | .merge16 _ _ => true
  | .split16 _ => true
  | .pack16 _ => true
  | .pack8 _ => true
  | .unpack16 c d e => Digit.legal c && Digit.legal d && Digit.legal e
  | .unpack8 c d => Digit.legal c && Digit.legal d
  | .lutI2c idx => Digit.legal idx
  | .lutC2i _ => true

end Sys2Proof
end

