-- ==== Sys2Proof/Decode.lean ====
section
/-! DEFINITION. From operand words to operations and back (R68 to R70, opcode_table.json). The block has no
instruction words: a word means what the wires it stands on make of it, so a word is decoded together with its port. -/

namespace Sys2Proof

/-- The eight combinational functions of format FUNC: "selected by being wired, not by an opcode" (R68, R84). -/
inductive Func where
  | merge16
  | split16
  | pack16
  | pack8
  | unpack16
  | unpack8
  | lutI2c
  | lutC2i
deriving DecidableEq, Repr

/-- Where a word stands: the internal selector `sel` (SEL3), the engine select of the START command, or the operand
wires of one of the functions (R68). -/
inductive Port where
  | sel3
  | start
  | func (f : Func)
deriving DecidableEq, Repr

/-- A word on a port, bit 0 least significant (R13). -/
structure OpWord where
  port : Port
  bits : Nat
deriving DecidableEq, Repr

/-- Why a word is no operation: it has bits beyond the port's width. Every word that fits a port is assigned (R70). -/
inductive DecodeError where
  | wordTooWide (p : Port)
deriving DecidableEq, Repr

/-- The width of a function's operand word (the row's encoding in opcode_table.json). -/
def Func.width : Func → Nat
  | .merge16 => 16
  | .split16 => 16
  | .pack16 => 16
  | .pack8 => 8
  | .unpack16 => 18
  | .unpack8 => 12
  | .lutI2c => 6
  | .lutC2i => 8

/-- The width of a port's word (R68). -/
def Port.width : Port → Nat
  | .sel3 => 3
  | .start => 1
  | .func f => f.width

/-- The `len` bits of `w` from bit `lo` up: `w[lo+len-1:lo]` (R13). -/
def bitField (w lo len : Nat) : BitVec len := BitVec.ofNat len (w / 2 ^ lo)

/-- The selector `sel = {dir, rc[1:0]}` (R69, R70). -/
def decodeSel (w : Nat) : Except DecodeError Instr :=
  match w with
  | 0 => .ok .encDone
  | 1 => .ok .encTail
  | 2 => .ok (.encPair 0)
  | 3 => .ok (.encPair 1)
  | 4 => .ok .decDone
  | 5 => .ok .decDangle
  | 6 => .ok .decTail
  | 7 => .ok .decTriplet
  | _ => .error (.wordTooWide .sel3)

/-- The 1-bit engine select of START: 0 encoder, 1 decoder (R68, R126, R127). -/
def decodeStart (w : Nat) : Except DecodeError Instr :=
  match w with
  | 0 => .ok .startEncode
  | 1 => .ok .startDecode
  | _ => .error (.wordTooWide .start)

/-- The operand word of a function (R90 to R96, R84, R86; the bundles of R64 and R65). -/
def decodeFunc (f : Func) (w : Nat) : Except DecodeError Instr :=
  if w < 2 ^ f.width then
    match f with
    | .merge16 => .ok (.merge16 (bitField w 8 8) (bitField w 0 8))
    | .split16 => .ok (.split16 (bitField w 0 16))
    | .pack16 => .ok (.pack16 (bitField w 0 16))
    | .pack8 => .ok (.pack8 (bitField w 0 8))
    | .unpack16 => .ok (.unpack16 (bitField w 0 6) (bitField w 6 6) (bitField w 12 6))
    | .unpack8 => .ok (.unpack8 (bitField w 0 6) (bitField w 6 6))
    | .lutI2c => .ok (.lutI2c (bitField w 0 6))
    | .lutC2i => .ok (.lutC2i (bitField w 0 8))
  else .error (.wordTooWide (.func f))

/-- The operation a word means on its port; total on every word. -/
def decode (p : Port) (w : Nat) : Except DecodeError Instr :=
  match p with
  | .sel3 => decodeSel w
  | .start => decodeStart w
  | .func f => decodeFunc f w

/-- The number a list of bytes stands for, the first byte least significant. -/
def bytesValue : List Byte → Nat
  | [] => 0
  | b :: bs => b.toNat + 256 * bytesValue bs

/-- Decoding a port's word given as bytes, the first byte holding bits 7:0; total on any bytes. -/
def decodeBytes (p : Port) (bs : List Byte) : Except DecodeError Instr := decode p (bytesValue bs)

/-- The word of an operation, on its port (opcode_table.json; the bundles `{e, d, c}` and `{d, c}` of R64 and R65). -/
def encode : Instr → OpWord
  | .encDone => ⟨.sel3, 0⟩
  | .encTail => ⟨.sel3, 1⟩
  | .encPair x => ⟨.sel3, 2 + x.toNat⟩
  | .decDone => ⟨.sel3, 4⟩
  | .decDangle => ⟨.sel3, 5⟩
  | .decTail => ⟨.sel3, 6⟩
  | .decTriplet => ⟨.sel3, 7⟩
  | .startEncode => ⟨.start, 0⟩
  | .startDecode => ⟨.start, 1⟩
  | .merge16 a b => ⟨.func .merge16, a.toNat * 2 ^ 8 + b.toNat⟩
  | .split16 n => ⟨.func .split16, n.toNat⟩
  | .pack16 n => ⟨.func .pack16, n.toNat⟩
  | .pack8 n => ⟨.func .pack8, n.toNat⟩
  | .unpack16 c d e => ⟨.func .unpack16, e.toNat * 2 ^ 12 + d.toNat * 2 ^ 6 + c.toNat⟩
  | .unpack8 c d => ⟨.func .unpack8, d.toNat * 2 ^ 6 + c.toNat⟩
  | .lutI2c idx => ⟨.func .lutI2c, idx.toNat⟩
  | .lutC2i ch => ⟨.func .lutC2i, ch.toNat⟩

/-- The ports in the order of opcode_table.json's rows. -/
def tablePorts : List Port :=
  [.sel3, .start, .func .merge16, .func .split16, .func .pack16, .func .pack8, .func .unpack16, .func .unpack8,
    .func .lutI2c, .func .lutC2i]

/-- A word of `nbits` bits can stand on a port: `nbits` is the port's width, as it is or in whole bytes, and the word
has no bit beyond the width. -/
def Port.takes (nbits w : Nat) (p : Port) : Bool :=
  (nbits == p.width || nbits == (p.width + 7) / 8 * 8) && decide (w < 2 ^ p.width)

/-- The port of a bare word of the table. The formats SEL3, START and FUNC overlap as bits (R68), so the first row
of the table, in the table's order, that the word can be is taken (log 20). -/
def tablePort (nbits w : Nat) : Option Port := tablePorts.find? (Port.takes nbits w)

/-- The operation the decoder reads from a bare word numbered as the table numbers it. -/
def decodeTableWord (nbits w : Nat) : Option Instr :=
  match tablePort nbits w with
  | none => none
  | some p =>
    match decode p w with
    | .ok i => some i
    | .error _ => none

end Sys2Proof
end

