-- ==== Sys2Proof/Machine/State.lean ====
section
/-! DEFINITION. The state of the block: two engines and the host's side, as plain data (R20 to R34), the reasons a
step can stop, and the state after reset. -/

namespace Sys2Proof.Machine

/-- The two engines (R20); the select bit `dir` names them 0 and 1 (R154). -/
inductive EngineId where
  | encoder
  | decoder
deriving DecidableEq, Repr

/-- The agents that take steps (R20). -/
inductive Agent where
  | engine (e : EngineId)
  | host
deriving DecidableEq, Repr

/-- `STATUS` (R25, D6). -/
inductive Status where
  | idle
  | busy
  | done
  | error
deriving DecidableEq, Repr

/-- `ERR_KIND` (R26, D8); the code 3 is never produced. -/
inductive ErrKind where
  | none
  | invalidCharacter
  | lengthError
deriving DecidableEq, Repr

/-- Whose the buffers of an engine are (R51, R128, R164): the host's, or the call's from START until the host has read
`STATUS = DONE` or `STATUS = ERROR`. A record of what the host has done, no register of the block (log 27). -/
inductive Owner where
  /-- The host may use the buffers: no START since reset, or the host has read the end of the last call. -/
  | host
  /-- A call has been started, and the host has not yet read its end. -/
  | call
  /-- The host wrote SRC or LEN or read DST after the call's end without having read it: the call's result is
  unspecified until the next START or reset (R164). -/
  | broken
deriving DecidableEq, Repr

/-- A buffer: the elements written since reset, by position, strictly rising. A position not listed holds a free
value (log 4). -/
abbrev Memory := List Host.Cell

/-- The canonical form of a buffer: positions strictly rising, so at most one entry a position. -/
abbrev Memory.wf (m : Memory) : Prop := m.Pairwise (fun x y => x.1 < y.1)

/-- One engine's registers and buffers (R20, R22 to R27, R31), and who owns the buffers (R164, log 27). -/
structure Engine where
  pos     : Nat
  len     : Nat
  status  : Status
  errKind : ErrKind
  errPos  : Nat
  src     : Memory
  dst     : Memory
  owner   : Owner
deriving DecidableEq, Repr

/-- The host's register and buffer accesses and the reset input (R125, R160). The host cannot reach `POS` (R22, R155)
and has no write of `DST` (R125). -/
inductive HostAccess where
  | writeSrc (e : EngineId) (i : Nat) (v : Byte)
  | writeLen (e : EngineId) (n : Nat)
  | readStatus (e : EngineId)
  | readErrKind (e : EngineId)
  | readErrPos (e : EngineId)
  | readLen (e : EngineId)
  | readOutLen (e : EngineId)
  | readSrc (e : EngineId) (i : Nat)
  | readDst (e : EngineId) (i : Nat)
  | reset
deriving DecidableEq, Repr

/-- One move of the host: a START command with its engine select (R126, R127), an operand word put on a function's
wires (R134, log 10), or an access of R125. -/
inductive HostMove where
  | start (select : BitVec 1)
  | eval (f : Func) (w : Nat)
  | access (a : HostAccess)
deriving DecidableEq, Repr

/-- What was last presented to the host or on a function's result wires, with the width of the result (log 10). -/
inductive Output where
  | none
  | pairValue (n : BitVec 16)
  | bytePair (a b : Byte)
  | threeDigits (c d e : Digit)
  | twoDigits (c d : Digit)
  | tripletValue (n : BitVec 17)
  | tailValue (n : BitVec 11)
  | character (ch : Byte)
  | lookup (hit : BitVec 1) (idx : Digit)
  | status (code : BitVec 2)
  | errKind (code : BitVec 2)
  | errPos (p : Nat)
  | len (n : Nat)
  | outLen (n : Nat)
  | element (v : Byte)
deriving DecidableEq, Repr

/-- The whole state: the engines (R20), the parameters (R33, never written), and the model's own fields: the host's
moves still to come, whose turn is next, the last output, and the counters behind the free values. -/
structure State where
  enc     : Engine
  dec     : Engine
  params  : Params
  pending : List HostMove
  turns   : List Agent
  out     : Output
  draws   : Nat
  epoch   : Nat
deriving DecidableEq, Repr

/-- Reasons the machine stops with a fault. The spec's own faults (R140) are next states, not these. -/
inductive Fault where
  /-- Raised by a host access to `SRC[i]` with `i >= MAX_LEN`, an element R125 does not have. Safe: the model stops. -/
  | noSuchElement (e : EngineId) (i : Nat)
deriving DecidableEq, Repr

/-- Reasons the model gives a move no meaning; each is safe, since the model stops where the block would go on. -/
inductive Refusal where
  /-- Raised by `exec` for an operation without a meaning; no arm uses it. Safe. -/
  | notModelled (mnemonic : String)
  /-- Raised by a step operation outside its precondition (R101 to R104, R110 to R114); `step` never selects one so. Safe. -/
  | stepNotSelected (e : EngineId)
  /-- Raised by START on a BUSY engine, whose "effect is unspecified" (R165, U6). Safe. -/
  | startWhileBusy (e : EngineId)
  /-- Raised by a host write of `SRC` or `LEN`, or a host read of `SRC` or `DST`, while the engine is BUSY (R125, R164, U5). Safe. -/
  | bufferWhileBusy (e : EngineId)
  /-- Raised by a host write of `LEN` above `MAX_LEN`, which "cannot be expressed" (U12). Safe. -/
  | lenAboveMax (e : EngineId) (n : Nat)
  /-- Raised by the step for a word with bits beyond its port's width, which the wires cannot carry. Safe. -/
  | undecodable (e : DecodeError)
deriving DecidableEq, Repr

/-- An engine after reset (R34, R160): IDLE, every register 0, no element specified, the buffers
the host's. -/
def Engine.reset : Engine :=
  { pos := 0, len := 0, status := .idle, errKind := .none, errPos := 0, src := [], dst := [], owner := .host }

/-- The parameters State.reset carries: `MAX_LEN` unbounded (R9 allows it), IGNORE (the default of R10), WRAP (R11). -/
def paramsAtReset : Params := { maxLen := none, dangle := .ignore, overflow := .wrap }

/-- The machine right after reset (R34, R160). No host move is pending; the model's own fields are empty or 0. -/
def State.reset : State :=
  { enc := Engine.reset, dec := Engine.reset, params := paramsAtReset, pending := [], turns := [], out := .none,
    draws := 0, epoch := 0 }

end Sys2Proof.Machine
end

