-- ==== Sys2Proof/Machine/Ops.lean ====
section
/-! DEFINITION. The named operations over buffers and registers, the entry of a fault and the start of a call. -/

namespace Sys2Proof.Machine

/-- The element written at position `a`, or none where nothing has been written since reset. -/
def Memory.read (a : Nat) : Memory → Option Byte
  | [] => none
  | (b, w) :: m => if a = b then some w else Memory.read a m

/-- Write `v` at position `a`, keeping the positions strictly rising. -/
def Memory.write (a : Nat) (v : Byte) : Memory → Memory
  | [] => [(a, v)]
  | (b, w) :: m =>
    if a < b then (a, v) :: (b, w) :: m
    else if a = b then (a, v) :: m
    else (b, w) :: Memory.write a v m

/-- One engine of the state. -/
def State.engine (e : EngineId) (s : State) : Engine :=
  match e with
  | .encoder => s.enc
  | .decoder => s.dec

/-- The state with one engine replaced; the other is untouched (R20). -/
def State.setEngine (e : EngineId) (g : Engine) (s : State) : State :=
  match e with
  | .encoder => { s with enc := g }
  | .decoder => { s with dec := g }

/-- The address space of an engine's `SRC` (R40). -/
def srcSpace : EngineId → Space
  | .encoder => .encSrc
  | .decoder => .decSrc

/-- The address space of an engine's `DST` (R40). -/
def dstSpace : EngineId → Space
  | .encoder => .encDst
  | .decoder => .decDst

/-- What an unlisted position of a space reads as: the free value of this epoch (R34, U8, U9; log 4). -/
def State.unlisted (sp : Space) (i : Nat) (s : State) : Byte := Config.unwrittenElement s.epoch sp i

/-- `SRC[i]` of an engine: `MemRead(i, 1)` (R15, R46). -/
def State.readSrc (e : EngineId) (i : Nat) (s : State) : Byte :=
  ((s.engine e).src.read i).getD (s.unlisted (srcSpace e) i)

/-- `DST[i]` of an engine, as the buffer holds it (R15, R43). -/
def State.readDst (e : EngineId) (i : Nat) (s : State) : Byte :=
  ((s.engine e).dst.read i).getD (s.unlisted (dstSpace e) i)

/-- `MemWrite(i, 1, v)` to the engine's `DST` (R15). -/
def Engine.writeDst (i : Nat) (v : Byte) (g : Engine) : Engine := { g with dst := g.dst.write i v }

/-- The host's write of `SRC[i]` (R125). -/
def Engine.writeSrc (i : Nat) (v : Byte) (g : Engine) : Engine := { g with src := g.src.write i v }

/-- The host's write of `LEN` (R24, R125). -/
def Engine.writeLen (n : Nat) (g : Engine) : Engine := { g with len := n }

/-- `POS <- POS + k` (R23). -/
def Engine.advance (k : Nat) (g : Engine) : Engine := { g with pos := g.pos + k }

/-- `STATUS <- DONE` (R104, R114). -/
def Engine.finish (g : Engine) : Engine := { g with status := .done }

/-- TAKING A FAULT, `raise K(p)`: ERR_KIND, ERR_POS and STATUS are written; POS, LEN, SRC and DST are not (R17, R143).
Nothing is saved and control goes nowhere: an engine in ERROR takes no step. -/
def Engine.raise (k : ErrKind) (p : Nat) (g : Engine) : Engine :=
  { g with status := .error, errKind := k, errPos := p }

/-- START, the only way on from DONE or ERROR besides reset: there is no return from a fault (R145). POS, ERR_KIND and
ERR_POS are cleared and STATUS is BUSY (R126, R127), and the buffers are the call's (R164). -/
def Engine.start (g : Engine) : Engine :=
  { g with pos := 0, errKind := .none, errPos := 0, status := .busy, owner := .call }

/-- The owner after a host read of STATUS: the read that finds the call ended hands the buffers over (R164, R52). -/
def Owner.afterStatusRead (st : Status) (o : Owner) : Owner :=
  match o with
  | .host => .host
  | .call =>
    match st with
    | .idle => .call
    | .busy => .call
    | .done => .host
    | .error => .host
  | .broken => .broken

/-- The owner after a host access to SRC, LEN or DST that R164 keeps from the host: the call's result is unspecified
from then on (log 27). -/
def Owner.afterTouch (o : Owner) : Owner :=
  match o with
  | .host => .host
  | .call => .broken
  | .broken => .broken

/-- The host has read STATUS: nothing of the block changes (R133), only the record of R164. -/
def Engine.statusRead (g : Engine) : Engine := { g with owner := g.owner.afterStatusRead g.status }

/-- The host has touched SRC, LEN or DST (R164). -/
def Engine.touch (g : Engine) : Engine := { g with owner := g.owner.afterTouch }

/-- Present a value to the host or on a function's result wires (log 10). -/
def State.setOut (o : Output) (s : State) : State := { s with out := o }

/-- The free value `k` draws ahead (log 19). -/
def State.freeValue (k : Nat) (s : State) : Nat := Config.freeValue (s.draws + k)

/-- Use up `k` free values. -/
def State.drawn (k : Nat) (s : State) : State := { s with draws := s.draws + k }

/-- A value the spec leaves open, on the output: `f` cuts the next free value to the width of its wires (logs 10, 19). -/
def State.presentFree (f : Nat → Output) (s : State) : State := (s.setOut (f (s.freeValue 0))).drawn 1

/-- Reset: every engine to the state of R34, the calls in flight abandoned, both buffers unspecified anew (R160, R163).
The parameters, the host's moves and the model's own fields are not the block's registers and stay. -/
def State.applyReset (s : State) : State :=
  { s with enc := Engine.reset, dec := Engine.reset, epoch := s.epoch + 1 }

end Sys2Proof.Machine
end

