-- ==== Sys2Proof/Machine/Command.lean ====
section
/-! DEFINITION. The host's two START commands (R126, R127 of 44_host_interface.md). START on a BUSY engine has an
"unspecified" effect and is refused (R165, U6, D7). -/

namespace Sys2Proof.Machine

/-- START on one engine. -/
def State.startCall (e : EngineId) (s : State) : Host.Outcome State Fault Refusal :=
  if (s.engine e).status = .busy then .refused (.startWhileBusy e)
  else .next (s.setEngine e (s.engine e).start)

/-- `ENCODE` (R126). -/
def execStartEncode (s : State) : Host.Outcome State Fault Refusal := s.startCall .encoder

/-- `DECODE` (R127). -/
def execStartDecode (s : State) : Host.Outcome State Fault Refusal := s.startCall .decoder

end Sys2Proof.Machine
end

