-- ==== Sys2Proof/Machine/Alphabet.lean ====
section
/-! DEFINITION. `alphabet_lut`: the two constant tables (R80 to R87 of 40_alphabet_lut.md). They are functions, not
state: no agent can write them (R30, R40, R161). -/

namespace Sys2Proof.Machine

/-- The digits `0` to `9`, indices 0 to 9 (R81). -/
def alphabetNumerals : List Byte := [0x30, 0x31, 0x32, 0x33, 0x34, 0x35, 0x36, 0x37, 0x38, 0x39]

/-- The letters `A` to `M`, indices 10 to 22 (R81). -/
def alphabetFirstLetters : List Byte := [0x41, 0x42, 0x43, 0x44, 0x45, 0x46, 0x47, 0x48, 0x49, 0x4A, 0x4B, 0x4C, 0x4D]

/-- The letters `N` to `Z`, indices 23 to 35 (R81). -/
def alphabetLastLetters : List Byte := [0x4E, 0x4F, 0x50, 0x51, 0x52, 0x53, 0x54, 0x55, 0x56, 0x57, 0x58, 0x59, 0x5A]

/-- Space, `$`, `%`, `*`, `+`, `-`, `.`, `/`, `:`, indices 36 to 44 (R81). -/
def alphabetSigns : List Byte := [0x20, 0x24, 0x25, 0x2A, 0x2B, 0x2D, 0x2E, 0x2F, 0x3A]

/-- The 45 characters in order (R80), by their 8-bit codes (R81; log 18). -/
def alphabet : List Byte := alphabetNumerals ++ alphabetFirstLetters ++ alphabetLastLetters ++ alphabetSigns

/-- `ENC_LUT[d]`, for a digit 0 to 44; no entry for the reserved digits 45 to 63 (R81, R85). -/
def encLut (d : Digit) : Option Byte := alphabet[d.toNat]?

/-- `DEC_LUT[ch]`: the index on a hit, none on a miss, written from R83's table of codes (D21). -/
def decLut (ch : Byte) : Option Digit :=
  let c := ch.toNat
  if c = 0x20 then some 36
  else if c = 0x24 then some 37
  else if c = 0x25 then some 38
  else if c = 0x2A then some 39
  else if c = 0x2B then some 40
  else if c = 0x2D then some 41
  else if c = 0x2E then some 42
  else if c = 0x2F then some 43
  else if 0x30 ≤ c ∧ c ≤ 0x39 then some (BitVec.ofNat 6 (c - 0x30))
  else if c = 0x3A then some 44
  else if 0x41 ≤ c ∧ c ≤ 0x5A then some (BitVec.ofNat 6 (c - 0x41 + 10))
  else none

end Sys2Proof.Machine
end

