-- ==== Sys2Proof/Machine/Scalar.lean ====
section
/-! DEFINITION. The six scalar packing functions (R90 to R99 of 41_scalar_packing.md): pure, computed on naturals
(R12) and narrowed to the stated width of the result, which no result exceeds on the documented domain (R97). -/

namespace Sys2Proof.Machine

/-- `merge16(a, b) = a*256 + b` (R90). -/
def merge16 (a b : Byte) : BitVec 16 := BitVec.ofNat 16 (a.toNat * 256 + b.toNat)

/-- `split16(n) = (n div 256, n mod 256)` (R91). -/
def split16 (n : BitVec 16) : Byte × Byte := (BitVec.ofNat 8 (n.toNat / 256), BitVec.ofNat 8 (n.toNat % 256))

/-- `pack16(n)`: three digits, least-significant first, by the source's own pseudocode (R92). -/
def pack16 (n : BitVec 16) : Digit × Digit × Digit :=
  let e := n.toNat / 2025
  let n' := n.toNat - e * 2025
  let d := n' / 45
  let c := n' - d * 45
  (BitVec.ofNat 6 c, BitVec.ofNat 6 d, BitVec.ofNat 6 e)

/-- `pack8(n)`: two digits, least-significant first (R94). -/
def pack8 (n : Byte) : Digit × Digit :=
  let d := n.toNat / 45
  let c := n.toNat - d * 45
  (BitVec.ofNat 6 c, BitVec.ofNat 6 d)

/-- `unpack16(c, d, e) = c + d*45 + e*2025`, 17 bits (R95). -/
def unpack16 (c d e : Digit) : BitVec 17 := BitVec.ofNat 17 (c.toNat + d.toNat * 45 + e.toNat * 2025)

/-- `unpack8(c, d) = c + d*45`, 11 bits (R96). -/
def unpack8 (c d : Digit) : BitVec 11 := BitVec.ofNat 11 (c.toNat + d.toNat * 45)

end Sys2Proof.Machine
end

