-- ==== Sys2Proof/Machine/Operands.lean ====
section
/-! DEFINITION. The operands of a step: the elements left, the selector, and the group at the cursor (R68, R71). -/

namespace Sys2Proof.Machine

/-- `LEN - POS`, the input elements left (R68, R101, R110). -/
def Engine.remaining (g : Engine) : Nat := g.len - g.pos

/-- `dir`: 0 in the encoder, 1 in the decoder (R68). -/
def EngineId.dir : EngineId → Nat
  | .encoder => 0
  | .decoder => 1

/-- `rc = min(LEN - POS, 3)` (R68). -/
def Engine.rc (g : Engine) : Nat := min g.remaining 3

/-- `sel = {dir, rc[1:0]}`, computed afresh at each step (R68). -/
def selector (e : EngineId) (g : Engine) : Nat := e.dir * 4 + g.rc

/-- A step operation may run: its engine is BUSY and the number of elements left is the one its rule asks for. -/
def Engine.runs (g : Engine) (left : Bool) : Bool := decide (g.status = .busy) && left

/-- The character written for a digit. The encoder hands `ENC_LUT` digits of 0 to 44 only (R93, R94, R107), so the
free value that stands for a missing entry is never taken by an engine. -/
def State.charOf (d : Digit) (s : State) : Byte := (encLut d).getD (BitVec.ofNat 8 (s.freeValue 0))

/-- Look up the decoder's character at position `p`: its digit, or `p` itself where it misses (R111, R116). -/
def State.digitAt (p : Nat) (s : State) : Except Nat Digit :=
  match decLut (s.readSrc .decoder p) with
  | some d => .ok d
  | none => .error p

/-- The two digits from position `p`, in read order, or the position of the first miss (R112). -/
def State.tailDigits (p : Nat) (s : State) : Except Nat (Digit × Digit) :=
  match s.digitAt p with
  | .error q => .error q
  | .ok c =>
    match s.digitAt (p + 1) with
    | .error q => .error q
    | .ok d => .ok (c, d)

/-- The three digits from position `p`, in read order, or the position of the first miss (R111, R144). -/
def State.tripletDigits (p : Nat) (s : State) : Except Nat (Digit × Digit × Digit) :=
  match s.tailDigits p with
  | .error q => .error q
  | .ok (c, d) =>
    match s.digitAt (p + 2) with
    | .error q => .error q
    | .ok e => .ok (c, d, e)

/-- The group's value is beyond the byte range and the policy leaves its bytes open (R11, U2). -/
def State.opensBytes (overflows : Bool) (s : State) : Bool := decide (s.params.overflow = .anyValue) && overflows

/-- How many free values a triplet's step draws: two where its bytes are open, else none. -/
def State.tripletDraws (n : BitVec 17) (s : State) : Nat := if s.opensBytes (decide (65536 ≤ n.toNat)) then 2 else 0

/-- The bytes a triplet of value `n` gives: `(n div 256) mod 256` and `n mod 256`, bit 16 dropped (WRAP, R111);
any value for an overflow group under the alternative policy (U2). -/
def State.tripletBytes (n : BitVec 17) (s : State) : Byte × Byte :=
  if s.opensBytes (decide (65536 ≤ n.toNat)) then (BitVec.ofNat 8 (s.freeValue 0), BitVec.ofNat 8 (s.freeValue 1))
  else (BitVec.ofNat 8 (n.toNat / 256 % 256), BitVec.ofNat 8 (n.toNat % 256))

/-- How many free values a tail's step draws. -/
def State.tailDraws (n : BitVec 11) (s : State) : Nat := if s.opensBytes (decide (256 ≤ n.toNat)) then 1 else 0

/-- The byte a tail of value `n` gives: `n mod 256` (WRAP, R112); any value for an overflow group under the
alternative policy (U2). -/
def State.tailByte (n : BitVec 11) (s : State) : Byte :=
  if s.opensBytes (decide (256 ≤ n.toNat)) then BitVec.ofNat 8 (s.freeValue 0) else BitVec.ofNat 8 (n.toNat % 256)

end Sys2Proof.Machine
end

