-- ==== Sys2Proof/Machine/Decoder.lean ====
section
/-! DEFINITION. The decoder's step operations (R110 to R120 of 43_decoder.md). A miss or, under REJECT, a dangling
character takes the fault of R143, which is a next state. -/

namespace Sys2Proof.Machine

/-- `DEC_TRIPLET` (R111): three characters at the cursor to two bytes; the first miss in read order faults. -/
def execDecTriplet (s : State) : Host.Outcome State Fault Refusal :=
  if s.dec.runs (decide (3 ≤ s.dec.remaining)) then
    match s.tripletDigits s.dec.pos with
    | .error q => .next (s.setEngine .decoder (s.dec.raise .invalidCharacter q))
    | .ok (c, d, e) =>
      let i := s.dec.pos / 3
      let n := unpack16 c d e
      let (a, b) := s.tripletBytes n
      let g := (s.dec.writeDst (2 * i) a).writeDst (2 * i + 1) b
      .next ((s.setEngine .decoder (g.advance 3)).drawn (s.tripletDraws n))
  else .refused (.stepNotSelected .decoder)

/-- `DEC_TAIL` (R112): the last two characters to one byte; the first miss in read order faults. -/
def execDecTail (s : State) : Host.Outcome State Fault Refusal :=
  if s.dec.runs (decide (s.dec.remaining = 2)) then
    match s.tailDigits s.dec.pos with
    | .error q => .next (s.setEngine .decoder (s.dec.raise .invalidCharacter q))
    | .ok (c, d) =>
      let i := s.dec.pos / 3
      let n := unpack8 c d
      .next ((s.setEngine .decoder ((s.dec.writeDst (2 * i) (s.tailByte n)).advance 2)).drawn (s.tailDraws n))
  else .refused (.stepNotSelected .decoder)

/-- `DEC_DANGLE` (R113): one character left, neither read nor validated; ignored, or the fault `LengthError(POS)`. -/
def execDecDangle (s : State) : Host.Outcome State Fault Refusal :=
  if s.dec.runs (decide (s.dec.remaining = 1)) then
    match s.params.dangle with
    | .ignore => .next (s.setEngine .decoder (s.dec.advance 1))
    | .reject => .next (s.setEngine .decoder (s.dec.raise .lengthError s.dec.pos))
  else .refused (.stepNotSelected .decoder)

/-- `DEC_DONE` (R114). -/
def execDecDone (s : State) : Host.Outcome State Fault Refusal :=
  if s.dec.runs (decide (s.dec.remaining = 0)) then .next (s.setEngine .decoder s.dec.finish)
  else .refused (.stepNotSelected .decoder)

end Sys2Proof.Machine
end

