-- ==== Sys2Proof/Machine/Encoder.lean ====
section
/-! DEFINITION. The encoder's step operations (R100 to R109 of 42_encoder.md). None can fault (R106). -/

namespace Sys2Proof.Machine

/-- `ENC_PAIR` (R102): two bytes at the cursor to three characters, least-significant digit first. -/
def execEncPair (_x : BitVec 1) (s : State) : Host.Outcome State Fault Refusal :=
  if s.enc.runs (decide (2 ≤ s.enc.remaining)) then
    let p := s.enc.pos
    let i := p / 2
    let (c, d, e) := pack16 (merge16 (s.readSrc .encoder p) (s.readSrc .encoder (p + 1)))
    let g := s.enc.writeDst (3 * i) (s.charOf c)
    let g := g.writeDst (3 * i + 1) (s.charOf d)
    let g := g.writeDst (3 * i + 2) (s.charOf e)
    .next (s.setEngine .encoder (g.advance 2))
  else .refused (.stepNotSelected .encoder)

/-- `ENC_TAIL` (R103): the last odd byte to two characters. -/
def execEncTail (s : State) : Host.Outcome State Fault Refusal :=
  if s.enc.runs (decide (s.enc.remaining = 1)) then
    let p := s.enc.pos
    let i := p / 2
    let (c, d) := pack8 (s.readSrc .encoder p)
    let g := s.enc.writeDst (3 * i) (s.charOf c)
    let g := g.writeDst (3 * i + 1) (s.charOf d)
    .next (s.setEngine .encoder (g.advance 1))
  else .refused (.stepNotSelected .encoder)

/-- `ENC_DONE` (R104). -/
def execEncDone (s : State) : Host.Outcome State Fault Refusal :=
  if s.enc.runs (decide (s.enc.remaining = 0)) then .next (s.setEngine .encoder s.enc.finish)
  else .refused (.stepNotSelected .encoder)

end Sys2Proof.Machine
end

