-- ==== Sys2Proof/Machine/Function.lean ====
section
/-! DEFINITION. The combinational operations of format FUNC: their result appears on the result wires, the field `out`
of the model (log 10), and no register, buffer or table changes (R84, R86, R99). Outside the documented domain the
result is a free value and nothing stops (R85, U3, U10; logs 7, 8). -/

namespace Sys2Proof.Machine

/-- `merge16` (R90). -/
def execMerge16 (a b : Byte) (s : State) : Host.Outcome State Fault Refusal :=
  .next (s.setOut (.pairValue (merge16 a b)))

/-- `split16` (R91). -/
def execSplit16 (n : BitVec 16) (s : State) : Host.Outcome State Fault Refusal :=
  let (a, b) := split16 n
  .next (s.setOut (.bytePair a b))

/-- `pack16` (R92). -/
def execPack16 (n : BitVec 16) (s : State) : Host.Outcome State Fault Refusal :=
  let (c, d, e) := pack16 n
  .next (s.setOut (.threeDigits c d e))

/-- `pack8` (R94). -/
def execPack8 (n : Byte) (s : State) : Host.Outcome State Fault Refusal :=
  let (c, d) := pack8 n
  .next (s.setOut (.twoDigits c d))

/-- `unpack16` (R95); with a digit above 44 the result is any 17-bit value (U10, log 8). -/
def execUnpack16 (c d e : Digit) (s : State) : Host.Outcome State Fault Refusal :=
  if Digit.legal c && Digit.legal d && Digit.legal e then .next (s.setOut (.tripletValue (unpack16 c d e)))
  else .next (s.presentFree fun v => .tripletValue (BitVec.ofNat 17 v))

/-- `unpack8` (R96); with a digit above 44 the result is any 11-bit value (U10, log 8). -/
def execUnpack8 (c d : Digit) (s : State) : Host.Outcome State Fault Refusal :=
  if Digit.legal c && Digit.legal d then .next (s.setOut (.tailValue (unpack8 c d)))
  else .next (s.presentFree fun v => .tailValue (BitVec.ofNat 11 v))

/-- `LUT_I2C` (R84); for 45 to 63 "the result is unspecified and no fault is raised" (R85): any character (log 7). -/
def execLutI2c (idx : Digit) (s : State) : Host.Outcome State Fault Refusal :=
  match encLut idx with
  | some ch => .next (s.setOut (.character ch))
  | none => .next (s.presentFree fun v => .character (BitVec.ofNat 8 v))

/-- `LUT_C2I` (R86): (1, idx) on a hit; on a miss hit = 0 and idx is unspecified: any 6-bit value (U4, log 9). -/
def execLutC2i (ch : Byte) (s : State) : Host.Outcome State Fault Refusal :=
  match decLut ch with
  | some idx => .next (s.setOut (.lookup 1 idx))
  | none => .next (s.presentFree fun v => .lookup 0 (BitVec.ofNat 6 v))

end Sys2Proof.Machine
end

