-- ==== Sys2Proof/Machine/Dispatch.lean ====
section
/-! DEFINITION. The meaning of each operation: one arm per row of opcode_table.json. -/

namespace Sys2Proof.Machine

/-- The effect of one operation on the state. -/
def exec (i : Instr) (s : State) : Host.Outcome State Fault Refusal :=
  match i with
  | .encDone => Sys2Proof.Machine.execEncDone s
  | .encTail => Sys2Proof.Machine.execEncTail s
  | .encPair x => Sys2Proof.Machine.execEncPair x s
  | .decDone => Sys2Proof.Machine.execDecDone s
  | .decDangle => Sys2Proof.Machine.execDecDangle s
  | .decTail => Sys2Proof.Machine.execDecTail s
  | .decTriplet => Sys2Proof.Machine.execDecTriplet s
  | .startEncode => Sys2Proof.Machine.execStartEncode s
  | .startDecode => Sys2Proof.Machine.execStartDecode s
  | .merge16 a b => Sys2Proof.Machine.execMerge16 a b s
  | .split16 n => Sys2Proof.Machine.execSplit16 n s
  | .pack16 n => Sys2Proof.Machine.execPack16 n s
  | .pack8 n => Sys2Proof.Machine.execPack8 n s
  | .unpack16 c d e => Sys2Proof.Machine.execUnpack16 c d e s
  | .unpack8 c d => Sys2Proof.Machine.execUnpack8 c d s
  | .lutI2c idx => Sys2Proof.Machine.execLutI2c idx s
  | .lutC2i ch => Sys2Proof.Machine.execLutC2i ch s

end Sys2Proof.Machine
end

