-- ==== Sys2Proof/Machine/Fetch.lean ====
section
/-! DEFINITION. Where the next step comes from: whose turn it is, and the word or access that agent presents. The block
fetches no instructions (R54); an engine's word is its selector (R68), a START or a function's operand word is the host's. -/

namespace Sys2Proof.Machine

/-- What the agent whose turn it is does: presents a word on a port, makes an access, or nothing. The state is the one
in which it acts: the turn, and for the host the move, already taken off. -/
inductive Fetched where
  | word (p : Port) (w : Nat) (s : State)
  | access (a : HostAccess) (s : State)
  | idle (s : State)
deriving DecidableEq, Repr

/-- Who moves when `turns` names nobody: a BUSY engine before the host, so that every call ends (R171, log 15). -/
def State.defaultAgent (s : State) : Agent :=
  if s.enc.status = .busy then .engine .encoder
  else if s.dec.status = .busy then .engine .decoder
  else .host

/-- Whose turn it is (log 15). -/
def State.agent (s : State) : Agent :=
  match s.turns with
  | a :: _ => a
  | [] => s.defaultAgent

/-- The state with that turn taken. -/
def State.takeTurn (s : State) : State := { s with turns := s.turns.tail }

/-- An engine's move: its selector while BUSY, else nothing (R101, R110, R156). -/
def State.engineMove (e : EngineId) (s : State) : Fetched :=
  if (s.engine e).status = .busy then .word .sel3 (selector e (s.engine e)) s else .idle s

/-- The host's move: its next pending one, else nothing (log 16). -/
def State.hostMove (s : State) : Fetched :=
  match s.pending with
  | [] => .idle s
  | .start b :: rest => .word .start b.toNat { s with pending := rest }
  | .eval f w :: rest => .word (.func f) w { s with pending := rest }
  | .access a :: rest => .access a { s with pending := rest }

/-- What the next step does. -/
def State.fetch (s : State) : Fetched :=
  match s.agent with
  | .engine e => s.takeTurn.engineMove e
  | .host => s.takeTurn.hostMove

/-- Give each of the `k` elements from position `i` that nothing has written yet the value `v`. -/
def Memory.fill (v : Byte) : Nat → Nat → Memory → Memory
  | _, 0, m => m
  | i, k + 1, m =>
    match m.read i with
    | some _ => Memory.fill v (i + 1) k m
    | none => Memory.fill v (i + 1) k (m.write i v)

/-- The element that stands for an operand of zeros: the byte 0, or the character of the digit 0 (R81). -/
def zeroElement : EngineId → Byte
  | .encoder => 0
  | .decoder => 0x30

/-- Make one engine BUSY with `left` elements left, operands of zeros where the input holds none, and give it the turn
(log 20). -/
def State.placeStep (e : EngineId) (left : Nat) (s : State) : State :=
  let g := s.engine e
  let g := { g with status := .busy, owner := .call, len := g.pos + left,
                    src := Memory.fill (zeroElement e) g.pos left g.src }
  { s.setEngine e g with turns := .engine e :: s.turns }

/-- Put a move before the host's others, and give the host the turn (log 20). -/
def State.placeMove (m : HostMove) (s : State) : State :=
  { s with pending := m :: s.pending, turns := .host :: s.turns }

/-- Store a word where the next step fetches it: a selector as the engine's count of elements left, a START or a
function's word as the host's next move. -/
def State.placeWord (p : Port) (w : Nat) (s : State) : State :=
  match p with
  | .sel3 => if w < 4 then s.placeStep .encoder w else s.placeStep .decoder (w - 4)
  | .start => s.placeMove (.start (BitVec.ofNat 1 w))
  | .func f => s.placeMove (.eval f w)

end Sys2Proof.Machine
end

