-- ==== Sys2Proof/Machine/Flags.lean ====
section
/-! DEFINITION. What a program can test. The block has no condition codes (R29): only STATUS with ERR_KIND and ERR_POS,
and the derived OUT_LEN. -/

namespace Sys2Proof.Machine

/-- The 2-bit code of STATUS (R25). -/
def Status.code : Status → BitVec 2
  | .idle => 0
  | .busy => 1
  | .done => 2
  | .error => 3

/-- The 2-bit code of ERR_KIND (R26). -/
def ErrKind.code : ErrKind → BitVec 2
  | .none => 0
  | .invalidCharacter => 1
  | .lengthError => 2

/-- The length of a successful call's output, from the length of its input (R28, R105, R115). -/
def outputLength (e : EngineId) (len : Nat) : Nat :=
  match e with
  | .encoder => 3 * (len / 2) + (if len % 2 = 1 then 2 else 0)
  | .decoder => 2 * (len / 3) + (if len % 3 = 2 then 1 else 0)

/-- OUT_LEN: the formula in DONE, 0 in ERROR, unspecified in IDLE and BUSY (R28, D23). -/
def Engine.outLen (e : EngineId) (g : Engine) : Option Nat :=
  match g.status with
  | .done => some (outputLength e g.len)
  | .error => some 0
  | .idle => none
  | .busy => none

end Sys2Proof.Machine
end

