-- ==== Sys2Proof/Machine/HostPort.lean ====
section
/-! DEFINITION. The host's register and buffer accesses and the reset input (R125, R133, R160, R163, R164). A read
changes nothing of the block: only the output the host sees (R133) and the record of whose the buffers are.
From START until the host has read DONE or ERROR the buffers are the call's (R164): touched while BUSY they are refused
(U5, log 12); touched after the call's end the access is made, a value read is any value, and the call's result is any
value until the next START or reset (log 27). -/

namespace Sys2Proof.Machine

/-- Write `SRC[i]`: only while not BUSY (R125, R164) and `i < MAX_LEN` (R125); before the end of the last call is
read it spoils that call's result (R164). -/
def hostWriteSrc (e : EngineId) (i : Nat) (v : Byte) (s : State) : Host.Outcome State Fault Refusal :=
  if (s.engine e).status = .busy then .refused (.bufferWhileBusy e)
  else if s.params.admits (i + 1) then .next (s.setEngine e ((s.engine e).writeSrc i v).touch)
  else .fault (.noSuchElement e i)

/-- Write `LEN`: only while not BUSY (R24, R164), and only a value `LEN` can hold (R9, U12); before the end of the last call
is read it spoils that call's result (R164). -/
def hostWriteLen (e : EngineId) (n : Nat) (s : State) : Host.Outcome State Fault Refusal :=
  if (s.engine e).status = .busy then .refused (.bufferWhileBusy e)
  else if s.params.admits n then .next (s.setEngine e ((s.engine e).writeLen n).touch)
  else .refused (.lenAboveMax e n)

/-- The call ended in `st` and the host broke R164: what R172 calls the call's result in that STATUS is unspecified
(log 27). -/
def Engine.spoilt (st : Status) (g : Engine) : Bool := decide (g.status = st) && decide (g.owner = .broken)

/-- A free `ERR_KIND`: any but 3, which is never produced (R26). -/
def freeErrKind (v : Nat) : BitVec 2 := BitVec.ofNat 2 (v % 3)

/-- A free `ERR_POS`: any in `0 .. MAX_LEN - 1` (R27). -/
def freeErrPos (p : Params) (v : Nat) : Nat :=
  match p.maxLen with
  | none => v
  | some m => v % m

/-- Read `STATUS`, always allowed; a read of DONE or ERROR ends the call's ownership (R164). -/
def hostReadStatus (e : EngineId) (s : State) : Host.Outcome State Fault Refusal :=
  .next ((s.setEngine e (s.engine e).statusRead).setOut (.status (s.engine e).status.code))

/-- Read `ERR_KIND`, always allowed. It is part of a result in ERROR only (R172), so a spoilt one is free there and
nowhere else: in DONE it reads 0 (R26), and in the encoder always (R125). -/
def hostReadErrKind (e : EngineId) (s : State) : Host.Outcome State Fault Refusal :=
  if (s.engine e).spoilt .error then .next (s.presentFree fun v => .errKind (freeErrKind v))
  else .next (s.setOut (.errKind (s.engine e).errKind.code))

/-- Read `ERR_POS`, always allowed; as `ERR_KIND` (R27, R125, R172). -/
def hostReadErrPos (e : EngineId) (s : State) : Host.Outcome State Fault Refusal :=
  if (s.engine e).spoilt .error then .next (s.presentFree fun v => .errPos (freeErrPos s.params v))
  else .next (s.setOut (.errPos (s.engine e).errPos))

/-- Read `OUT_LEN`: any value in IDLE and BUSY (R28, U7, log 6), and where it is part of a spoilt result, in
DONE (R172); 0 in ERROR (R28). -/
def hostReadOutLen (e : EngineId) (s : State) : Host.Outcome State Fault Refusal :=
  if (s.engine e).spoilt .done then .next (s.presentFree .outLen)
  else
    match (s.engine e).outLen e with
    | some n => .next (s.setOut (.outLen n))
    | none => .next (s.presentFree .outLen)

/-- Read back `SRC[i]`: only while not BUSY, `i < MAX_LEN` (R125). -/
def hostReadSrc (e : EngineId) (i : Nat) (s : State) : Host.Outcome State Fault Refusal :=
  if (s.engine e).status = .busy then .refused (.bufferWhileBusy e)
  else if s.params.admits (i + 1) then .next (s.setOut (.element (s.readSrc e i)))
  else .fault (.noSuchElement e i)

/-- `DST[i]` is part of a result: the engine is DONE, `i < OUT_LEN` (R125, R166), and the buffers are the host's (R164). -/
def Engine.resultAt (e : EngineId) (i : Nat) (g : Engine) : Bool :=
  decide (g.status = .done) && decide (i < outputLength e g.len) && decide (g.owner = .host)

/-- Read `DST[i]`: only while not BUSY; the element where it is part of a result, else any value (R125, R166, U8, log 5);
before the end of the last call is read it spoils that call's result (R164). -/
def hostReadDst (e : EngineId) (i : Nat) (s : State) : Host.Outcome State Fault Refusal :=
  if (s.engine e).status = .busy then .refused (.bufferWhileBusy e)
  else if (s.engine e).resultAt e i then .next (s.setOut (.element (s.readDst e i)))
  else .next ((s.setEngine e (s.engine e).touch).presentFree fun v => .element (BitVec.ofNat 8 v))

/-- One access of the host. -/
def hostAccess (a : HostAccess) (s : State) : Host.Outcome State Fault Refusal :=
  match a with
  | .writeSrc e i v => hostWriteSrc e i v s
  | .writeLen e n => hostWriteLen e n s
  | .readStatus e => hostReadStatus e s
  | .readErrKind e => hostReadErrKind e s
  | .readErrPos e => hostReadErrPos e s
  | .readLen e => .next (s.setOut (.len (s.engine e).len))
  | .readOutLen e => hostReadOutLen e s
  | .readSrc e i => hostReadSrc e i s
  | .readDst e i => hostReadDst e i s
  | .reset => .next s.applyReset

end Sys2Proof.Machine
end

