-- ==== Sys2Proof/Machine/Step.lean ====
section
/-! DEFINITION. One step of the block: one atomic operation of one agent (R18, D15), and the placing of a bare word. -/

namespace Sys2Proof.Machine

/-- One step: the agent whose turn it is presents a word, which is decoded and executed, or makes an access, or has
nothing to do and the turn passes (R156). -/
def step (s : State) : Host.Outcome State Fault Refusal :=
  match s.fetch with
  | .word p w t =>
    match decode p w with
    | .ok i => exec i t
    | .error e => .refused (.undecodable e)
  | .access a t => hostAccess a t
  | .idle t => .next t

/-- The state with a bare word of the table stored where the next step fetches it (log 20); a word that no port takes
changes nothing. -/
def State.withFetchWord (s : State) (nbits w : Nat) : State :=
  match tablePort nbits w with
  | none => s
  | some p => s.placeWord p w

end Sys2Proof.Machine
end

