-- ==== Sys2Proof/Safety.lean ====
section
/-! DEFINITION. What a sound state is, and the terms the statements use: several steps in a row, and the host accesses
that only read. -/

namespace Sys2Proof.Machine

/-- What R22 to R27 say of one engine's registers, and the canonical form of its buffers. `POS <= LEN` is claimed of a
call only: between calls the host may lower `LEN` below the last call's cursor (log 17). A call in progress owns its
buffers, and before any call they are the host's (R128, R164). -/
structure Engine.Sound (p : Params) (g : Engine) : Prop where
  lenAdmitted : p.admits g.len = true
  posAdmitted : p.admits g.pos = true
  posInCall : g.status = .busy → g.pos ≤ g.len
  errorKind : g.errKind = .none ↔ g.status ≠ .error
  errorPos : g.status ≠ .error → g.errPos = 0
  errorPosAdmitted : p.admits (g.errPos + 1) = true
  srcWf : g.src.wf
  dstWf : g.dst.wf
  busyOwned : g.status = .busy → g.owner = .call
  idleOwned : g.status = .idle → g.owner = .host

/-- The invariant of the block: both engines sound, `MAX_LEN` at least 1 (R9), the encoder never in ERROR (R25, R106),
the cursor aligned at the start of every step (R23, R107, R118), LengthError only under REJECT (R26, R142). -/
structure State.Inv (s : State) : Prop where
  maxLen : s.params.admits 1 = true
  encSound : s.enc.Sound s.params
  decSound : s.dec.Sound s.params
  encNoError : s.enc.status ≠ .error
  encAligned : s.enc.status = .busy → s.enc.pos % 2 = 0 ∨ s.enc.pos = s.enc.len
  decAligned : s.dec.status = .busy → s.dec.pos % 3 = 0 ∨ s.dec.pos = s.dec.len
  lengthErrorOnlyReject : s.dec.errKind = .lengthError → s.params.dangle = .reject

/-- `k` steps in a row, stopping at the first fault or refusal. -/
def runSteps : Nat → State → Host.Outcome State Fault Refusal
  | 0, s => .next s
  | k + 1, s =>
    match step s with
    | .next t => runSteps k t
    | .fault f => .fault f
    | .refused r => .refused r

/-- The host accesses that are reads (R133). -/
def HostAccess.isRead : HostAccess → Bool
  | .writeSrc _ _ _ => false
  | .writeLen _ _ => false
  | .readStatus _ => true
  | .readErrKind _ => true
  | .readErrPos _ => true
  | .readLen _ => true
  | .readOutLen _ => true
  | .readSrc _ _ => true
  | .readDst _ _ => true
  | .reset => false

/-- The accesses to engine `e` that R164 keeps from the host from START until it has read the end of the call. -/
def HostAccess.touches (e : EngineId) : HostAccess → Bool
  | .writeSrc e' _ _ => decide (e' = e)
  | .writeLen e' _ => decide (e' = e)
  | .readStatus _ => false
  | .readErrKind _ => false
  | .readErrPos _ => false
  | .readLen _ => false
  | .readOutLen _ => false
  | .readSrc _ _ => false
  | .readDst e' _ => decide (e' = e)
  | .reset => false

/-- The decoder's character at a position is an alphabet character (R116). -/
def State.validAt (i : Nat) (s : State) : Bool := (decLut (s.readSrc .decoder i)).isSome

/-- How many characters of a string of length `len` lie in a consumed group: all but a dangling one (R116). -/
def consumedLength (len : Nat) : Nat := if len % 3 = 1 then len - 1 else len

end Sys2Proof.Machine
end

