-- ==== Sys2Proof/Laws/State.lean ====
section
/-! SUPPORT. One lemma per field per named update, each true by rfl, so that no later proof unfolds an update. -/

namespace Sys2Proof.Machine

section EngineUpdates
variable (g : Engine) (i k p : Nat) (v : Byte) (e : ErrKind)

@[simp] theorem Engine.writeDst_pos : (g.writeDst i v).pos = g.pos := rfl
@[simp] theorem Engine.writeDst_len : (g.writeDst i v).len = g.len := rfl
@[simp] theorem Engine.writeDst_status : (g.writeDst i v).status = g.status := rfl
@[simp] theorem Engine.writeDst_errKind : (g.writeDst i v).errKind = g.errKind := rfl
@[simp] theorem Engine.writeDst_errPos : (g.writeDst i v).errPos = g.errPos := rfl
@[simp] theorem Engine.writeDst_src : (g.writeDst i v).src = g.src := rfl
@[simp] theorem Engine.writeDst_dst : (g.writeDst i v).dst = g.dst.write i v := rfl
@[simp] theorem Engine.writeDst_owner : (g.writeDst i v).owner = g.owner := rfl

@[simp] theorem Engine.writeSrc_pos : (g.writeSrc i v).pos = g.pos := rfl
@[simp] theorem Engine.writeSrc_len : (g.writeSrc i v).len = g.len := rfl
@[simp] theorem Engine.writeSrc_status : (g.writeSrc i v).status = g.status := rfl
@[simp] theorem Engine.writeSrc_errKind : (g.writeSrc i v).errKind = g.errKind := rfl
@[simp] theorem Engine.writeSrc_errPos : (g.writeSrc i v).errPos = g.errPos := rfl
@[simp] theorem Engine.writeSrc_src : (g.writeSrc i v).src = g.src.write i v := rfl
@[simp] theorem Engine.writeSrc_dst : (g.writeSrc i v).dst = g.dst := rfl
@[simp] theorem Engine.writeSrc_owner : (g.writeSrc i v).owner = g.owner := rfl

@[simp] theorem Engine.writeLen_pos : (g.writeLen i).pos = g.pos := rfl
@[simp] theorem Engine.writeLen_len : (g.writeLen i).len = i := rfl
@[simp] theorem Engine.writeLen_status : (g.writeLen i).status = g.status := rfl
@[simp] theorem Engine.writeLen_errKind : (g.writeLen i).errKind = g.errKind := rfl
@[simp] theorem Engine.writeLen_errPos : (g.writeLen i).errPos = g.errPos := rfl
@[simp] theorem Engine.writeLen_src : (g.writeLen i).src = g.src := rfl
@[simp] theorem Engine.writeLen_dst : (g.writeLen i).dst = g.dst := rfl
@[simp] theorem Engine.writeLen_owner : (g.writeLen i).owner = g.owner := rfl

@[simp] theorem Engine.advance_pos : (g.advance k).pos = g.pos + k := rfl
@[simp] theorem Engine.advance_len : (g.advance k).len = g.len := rfl
@[simp] theorem Engine.advance_status : (g.advance k).status = g.status := rfl
@[simp] theorem Engine.advance_errKind : (g.advance k).errKind = g.errKind := rfl
@[simp] theorem Engine.advance_errPos : (g.advance k).errPos = g.errPos := rfl
@[simp] theorem Engine.advance_src : (g.advance k).src = g.src := rfl
@[simp] theorem Engine.advance_dst : (g.advance k).dst = g.dst := rfl
@[simp] theorem Engine.advance_owner : (g.advance k).owner = g.owner := rfl

@[simp] theorem Engine.finish_pos : g.finish.pos = g.pos := rfl
@[simp] theorem Engine.finish_len : g.finish.len = g.len := rfl
@[simp] theorem Engine.finish_status : g.finish.status = .done := rfl
@[simp] theorem Engine.finish_errKind : g.finish.errKind = g.errKind := rfl
@[simp] theorem Engine.finish_errPos : g.finish.errPos = g.errPos := rfl
@[simp] theorem Engine.finish_src : g.finish.src = g.src := rfl
@[simp] theorem Engine.finish_dst : g.finish.dst = g.dst := rfl
@[simp] theorem Engine.finish_owner : g.finish.owner = g.owner := rfl

@[simp] theorem Engine.raise_pos : (g.raise e p).pos = g.pos := rfl
@[simp] theorem Engine.raise_len : (g.raise e p).len = g.len := rfl
@[simp] theorem Engine.raise_status : (g.raise e p).status = .error := rfl
@[simp] theorem Engine.raise_errKind : (g.raise e p).errKind = e := rfl
@[simp] theorem Engine.raise_errPos : (g.raise e p).errPos = p := rfl
@[simp] theorem Engine.raise_src : (g.raise e p).src = g.src := rfl
@[simp] theorem Engine.raise_dst : (g.raise e p).dst = g.dst := rfl
@[simp] theorem Engine.raise_owner : (g.raise e p).owner = g.owner := rfl

@[simp] theorem Engine.start_pos : g.start.pos = 0 := rfl
@[simp] theorem Engine.start_len : g.start.len = g.len := rfl
@[simp] theorem Engine.start_status : g.start.status = .busy := rfl
@[simp] theorem Engine.start_errKind : g.start.errKind = .none := rfl
@[simp] theorem Engine.start_errPos : g.start.errPos = 0 := rfl
@[simp] theorem Engine.start_src : g.start.src = g.src := rfl
@[simp] theorem Engine.start_dst : g.start.dst = g.dst := rfl
@[simp] theorem Engine.start_owner : g.start.owner = .call := rfl

@[simp] theorem Engine.statusRead_pos : g.statusRead.pos = g.pos := rfl
@[simp] theorem Engine.statusRead_len : g.statusRead.len = g.len := rfl
@[simp] theorem Engine.statusRead_status : g.statusRead.status = g.status := rfl
@[simp] theorem Engine.statusRead_errKind : g.statusRead.errKind = g.errKind := rfl
@[simp] theorem Engine.statusRead_errPos : g.statusRead.errPos = g.errPos := rfl
@[simp] theorem Engine.statusRead_src : g.statusRead.src = g.src := rfl
@[simp] theorem Engine.statusRead_dst : g.statusRead.dst = g.dst := rfl
@[simp] theorem Engine.statusRead_owner : g.statusRead.owner = g.owner.afterStatusRead g.status := rfl

@[simp] theorem Engine.touch_pos : g.touch.pos = g.pos := rfl
@[simp] theorem Engine.touch_len : g.touch.len = g.len := rfl
@[simp] theorem Engine.touch_status : g.touch.status = g.status := rfl
@[simp] theorem Engine.touch_errKind : g.touch.errKind = g.errKind := rfl
@[simp] theorem Engine.touch_errPos : g.touch.errPos = g.errPos := rfl
@[simp] theorem Engine.touch_src : g.touch.src = g.src := rfl
@[simp] theorem Engine.touch_dst : g.touch.dst = g.dst := rfl
@[simp] theorem Engine.touch_owner : g.touch.owner = g.owner.afterTouch := rfl

end EngineUpdates

section StateUpdates
variable (s : State) (g : Engine) (o : Output) (k : Nat) (f : Nat → Output)

@[simp] theorem State.setEngine_encoder_enc : (s.setEngine .encoder g).enc = g := rfl
@[simp] theorem State.setEngine_encoder_dec : (s.setEngine .encoder g).dec = s.dec := rfl
@[simp] theorem State.setEngine_encoder_params : (s.setEngine .encoder g).params = s.params := rfl
@[simp] theorem State.setEngine_encoder_pending : (s.setEngine .encoder g).pending = s.pending := rfl
@[simp] theorem State.setEngine_encoder_turns : (s.setEngine .encoder g).turns = s.turns := rfl
@[simp] theorem State.setEngine_encoder_out : (s.setEngine .encoder g).out = s.out := rfl
@[simp] theorem State.setEngine_encoder_draws : (s.setEngine .encoder g).draws = s.draws := rfl
@[simp] theorem State.setEngine_encoder_epoch : (s.setEngine .encoder g).epoch = s.epoch := rfl

@[simp] theorem State.setEngine_decoder_enc : (s.setEngine .decoder g).enc = s.enc := rfl
@[simp] theorem State.setEngine_decoder_dec : (s.setEngine .decoder g).dec = g := rfl
@[simp] theorem State.setEngine_decoder_params : (s.setEngine .decoder g).params = s.params := rfl
@[simp] theorem State.setEngine_decoder_pending : (s.setEngine .decoder g).pending = s.pending := rfl
@[simp] theorem State.setEngine_decoder_turns : (s.setEngine .decoder g).turns = s.turns := rfl
@[simp] theorem State.setEngine_decoder_out : (s.setEngine .decoder g).out = s.out := rfl
@[simp] theorem State.setEngine_decoder_draws : (s.setEngine .decoder g).draws = s.draws := rfl
@[simp] theorem State.setEngine_decoder_epoch : (s.setEngine .decoder g).epoch = s.epoch := rfl

@[simp] theorem State.setOut_enc : (s.setOut o).enc = s.enc := rfl
@[simp] theorem State.setOut_dec : (s.setOut o).dec = s.dec := rfl
@[simp] theorem State.setOut_params : (s.setOut o).params = s.params := rfl
@[simp] theorem State.setOut_pending : (s.setOut o).pending = s.pending := rfl
@[simp] theorem State.setOut_turns : (s.setOut o).turns = s.turns := rfl
@[simp] theorem State.setOut_out : (s.setOut o).out = o := rfl
@[simp] theorem State.setOut_draws : (s.setOut o).draws = s.draws := rfl
@[simp] theorem State.setOut_epoch : (s.setOut o).epoch = s.epoch := rfl

@[simp] theorem State.drawn_enc : (s.drawn k).enc = s.enc := rfl
@[simp] theorem State.drawn_dec : (s.drawn k).dec = s.dec := rfl
@[simp] theorem State.drawn_params : (s.drawn k).params = s.params := rfl
@[simp] theorem State.drawn_pending : (s.drawn k).pending = s.pending := rfl
@[simp] theorem State.drawn_turns : (s.drawn k).turns = s.turns := rfl
@[simp] theorem State.drawn_out : (s.drawn k).out = s.out := rfl
@[simp] theorem State.drawn_draws : (s.drawn k).draws = s.draws + k := rfl
@[simp] theorem State.drawn_epoch : (s.drawn k).epoch = s.epoch := rfl

@[simp] theorem State.presentFree_enc : (s.presentFree f).enc = s.enc := rfl
@[simp] theorem State.presentFree_dec : (s.presentFree f).dec = s.dec := rfl
@[simp] theorem State.presentFree_params : (s.presentFree f).params = s.params := rfl
@[simp] theorem State.presentFree_pending : (s.presentFree f).pending = s.pending := rfl
@[simp] theorem State.presentFree_turns : (s.presentFree f).turns = s.turns := rfl
@[simp] theorem State.presentFree_epoch : (s.presentFree f).epoch = s.epoch := rfl
@[simp] theorem State.presentFree_out : (s.presentFree f).out = f (s.freeValue 0) := rfl
@[simp] theorem State.presentFree_draws : (s.presentFree f).draws = s.draws + 1 := rfl

@[simp] theorem State.takeTurn_enc : s.takeTurn.enc = s.enc := rfl
@[simp] theorem State.takeTurn_dec : s.takeTurn.dec = s.dec := rfl
@[simp] theorem State.takeTurn_params : s.takeTurn.params = s.params := rfl
@[simp] theorem State.takeTurn_pending : s.takeTurn.pending = s.pending := rfl
@[simp] theorem State.takeTurn_turns : s.takeTurn.turns = s.turns.tail := rfl
@[simp] theorem State.takeTurn_out : s.takeTurn.out = s.out := rfl
@[simp] theorem State.takeTurn_draws : s.takeTurn.draws = s.draws := rfl
@[simp] theorem State.takeTurn_epoch : s.takeTurn.epoch = s.epoch := rfl

@[simp] theorem State.applyReset_enc : s.applyReset.enc = Engine.reset := rfl
@[simp] theorem State.applyReset_dec : s.applyReset.dec = Engine.reset := rfl
@[simp] theorem State.applyReset_params : s.applyReset.params = s.params := rfl
@[simp] theorem State.applyReset_pending : s.applyReset.pending = s.pending := rfl
@[simp] theorem State.applyReset_turns : s.applyReset.turns = s.turns := rfl
@[simp] theorem State.applyReset_out : s.applyReset.out = s.out := rfl
@[simp] theorem State.applyReset_draws : s.applyReset.draws = s.draws := rfl
@[simp] theorem State.applyReset_epoch : s.applyReset.epoch = s.epoch + 1 := rfl

@[simp] theorem State.engine_encoder : s.engine .encoder = s.enc := rfl
@[simp] theorem State.engine_decoder : s.engine .decoder = s.dec := rfl

end StateUpdates

end Sys2Proof.Machine
end

