-- ==== Sys2Proof/Laws/Memory.lean ====
section
/-! SUPPORT. Buffers: read after write, the canonical form is kept, and equal contents are equal data. -/

namespace Sys2Proof.Machine

theorem Memory.read_write_same (a : Nat) (v : Byte) (m : Memory) : (m.write a v).read a = some v := by
  induction m with
  | nil => simp [Memory.write, Memory.read]
  | cons x m ih =>
    obtain ⟨b, w⟩ := x
    unfold Memory.write
    split
    · simp [Memory.read]
    · split
      · simp [Memory.read]
      · rename_i h
        simp [Memory.read, h, ih]

theorem Memory.read_write_other {a b : Nat} (h : b ≠ a) (v : Byte) (m : Memory) :
    (m.write a v).read b = m.read b := by
  induction m with
  | nil => simp [Memory.write, Memory.read, h]
  | cons x m ih =>
    obtain ⟨c, w⟩ := x
    unfold Memory.write
    split
    · simp [Memory.read, h]
    · split
      · subst_vars
        simp [Memory.read, h]
      · simp only [Memory.read, ih]

/-- Reading after a write, both cases at once. -/
theorem Memory.read_write (a b : Nat) (v : Byte) (m : Memory) :
    (m.write a v).read b = if b = a then some v else m.read b := by
  split
  · subst_vars; exact Memory.read_write_same _ _ _
  · exact Memory.read_write_other ‹_› _ _

theorem Memory.mem_write {a : Nat} {v : Byte} {m : Memory} {x : Host.Cell} (h : x ∈ m.write a v) :
    x = (a, v) ∨ x ∈ m := by
  induction m with
  | nil => simpa [Memory.write] using h
  | cons y m ih =>
    obtain ⟨b, w⟩ := y
    unfold Memory.write at h
    split at h
    · simpa using h
    · split at h
      · rcases List.mem_cons.1 h with h | h
        · exact .inl h
        · exact .inr (List.mem_cons_of_mem _ h)
      · rcases List.mem_cons.1 h with h | h
        · exact .inr (h ▸ List.mem_cons_self)
        · exact (ih h).imp id (List.mem_cons_of_mem _)

/-- A write keeps the canonical form. -/
theorem Memory.wf_write {m : Memory} (a : Nat) (v : Byte) (h : m.wf) : (m.write a v).wf := by
  induction m with
  | nil => simp [Memory.write]
  | cons x m ih =>
    obtain ⟨b, w⟩ := x
    obtain ⟨hx, hm⟩ := List.pairwise_cons.1 h
    unfold Memory.write
    split
    · rename_i hab
      refine List.pairwise_cons.2 ⟨fun y hy => ?_, h⟩
      rcases List.mem_cons.1 hy with rfl | hy
      · exact hab
      · exact Nat.lt_trans hab (hx y hy)
    · split
      · subst_vars
        exact List.pairwise_cons.2 ⟨hx, hm⟩
      · refine List.pairwise_cons.2 ⟨fun y hy => ?_, ih hm⟩
        rcases Memory.mem_write hy with rfl | hy
        · show b < a
          omega
        · exact hx y hy

theorem Memory.wf_nil : Memory.wf [] := List.Pairwise.nil

theorem Memory.read_none_of_lt {a : Nat} {m : Memory} (h : ∀ x ∈ m, a < x.1) : m.read a = none := by
  induction m with
  | nil => rfl
  | cons x m ih =>
    obtain ⟨b, w⟩ := x
    have hb : a < b := h _ List.mem_cons_self
    simp only [Memory.read, Nat.ne_of_lt hb, if_false]
    exact ih fun y hy => h y (List.mem_cons_of_mem _ hy)

/-- Two buffers in canonical form with the same elements are the same data. -/
theorem Memory.wf_ext {m n : Memory} (hm : m.wf) (hn : n.wf) (h : ∀ a, m.read a = n.read a) : m = n := by
  induction m generalizing n with
  | nil =>
    cases n with
    | nil => rfl
    | cons y n => obtain ⟨b, w⟩ := y; simpa [Memory.read] using h b
  | cons x m ih =>
    obtain ⟨a, v⟩ := x
    obtain ⟨hx, hm'⟩ := List.pairwise_cons.1 hm
    cases n with
    | nil => simpa [Memory.read] using h a
    | cons y n =>
      obtain ⟨b, w⟩ := y
      obtain ⟨hy, hn'⟩ := List.pairwise_cons.1 hn
      have hxm : ∀ c, c ≤ a → Memory.read c m = none := fun c hc =>
        Memory.read_none_of_lt fun z hz => Nat.lt_of_le_of_lt hc (hx z hz)
      have hyn : ∀ c, c ≤ b → Memory.read c n = none := fun c hc =>
        Memory.read_none_of_lt fun z hz => Nat.lt_of_le_of_lt hc (hy z hz)
      have hab : a = b := by
        rcases Nat.lt_trichotomy a b with hlt | heq | hgt
        · have := h a
          simp [Memory.read, Nat.ne_of_lt hlt, hyn a (Nat.le_of_lt hlt)] at this
        · exact heq
        · have := h b
          simp [Memory.read, Nat.ne_of_lt hgt, hxm b (Nat.le_of_lt hgt)] at this
      subst hab
      have hv : v = w := by simpa [Memory.read] using h a
      subst hv
      have hrest : m = n := ih hm' hn' fun c => by
        by_cases hc : c = a
        · subst hc
          rw [hxm c (Nat.le_refl _), hyn c (Nat.le_refl _)]
        · simpa [Memory.read, hc] using h c
      rw [hrest]

end Sys2Proof.Machine
end

