-- ==== Sys2Proof/Laws/Ops.lean ====
section
/-! SUPPORT. One specification lemma per shared operation over registers, buffers and tables. -/

namespace Sys2Proof.Machine

section Elements
variable (s : State) (g : Engine) (i k : Nat)

/-- An element of the encoder's DST, through its buffer. -/
theorem State.readDst_encoder : s.readDst .encoder i = (s.enc.dst.read i).getD (s.unlisted .encDst i) := rfl

/-- An element of the decoder's DST, through its buffer. -/
theorem State.readDst_decoder : s.readDst .decoder i = (s.dec.dst.read i).getD (s.unlisted .decDst i) := rfl

/-- An element of the encoder's SRC, through its buffer. -/
theorem State.readSrc_encoder : s.readSrc .encoder i = (s.enc.src.read i).getD (s.unlisted .encSrc i) := rfl

/-- An element of the decoder's SRC, through its buffer. -/
theorem State.readSrc_decoder : s.readSrc .decoder i = (s.dec.src.read i).getD (s.unlisted .decSrc i) := rfl

/-- A written element is read back, and every other element is as before. -/
theorem Engine.read_writeDst (a b : Nat) (v : Byte) :
    (g.writeDst a v).dst.read b = if b = a then some v else g.dst.read b :=
  Memory.read_write a b v g.dst

@[simp] theorem State.unlisted_setEngine (e : EngineId) (sp : Space) :
    (s.setEngine e g).unlisted sp i = s.unlisted sp i := by cases e <;> rfl

@[simp] theorem State.unlisted_drawn (sp : Space) : (s.drawn k).unlisted sp i = s.unlisted sp i := rfl

end Elements

/-- START refuses a BUSY engine, and on every other it restarts the engine and changes nothing else (R126, R127, R165). -/
theorem State.startCall_cases (e : EngineId) (s : State) :
    ((s.engine e).status = .busy ∧ s.startCall e = .refused (.startWhileBusy e)) ∨
    ((s.engine e).status ≠ .busy ∧ s.startCall e = .next (s.setEngine e (s.engine e).start)) := by
  unfold State.startCall
  split
  · exact .inl ⟨‹_›, rfl⟩
  · exact .inr ⟨‹_›, rfl⟩

/-- Touching the buffers spoils the result exactly where the end of the call has not been read (R164). -/
theorem Owner.afterTouch_eq (o : Owner) : o.afterTouch = if o = .call then .broken else o := by cases o <;> rfl

/-- A read of STATUS hands the buffers over exactly where it finds the call ended (R164). -/
theorem Owner.afterStatusRead_eq (o : Owner) (st : Status) :
    o.afterStatusRead st = if o = .call ∧ (st = .done ∨ st = .error) then .host else o := by
  cases o <;> cases st <;> rfl

/-- A spoilt result stays spoilt under every further access of the host (R164). -/
theorem Owner.broken_stays (st : Status) : Owner.broken.afterTouch = .broken ∧ Owner.broken.afterStatusRead st = .broken :=
  ⟨rfl, rfl⟩

/-- A result is spoilt in the STATUS in which it is one, and nowhere else. -/
theorem Engine.spoilt_iff (st : Status) (g : Engine) : g.spoilt st = true ↔ g.status = st ∧ g.owner = .broken := by
  simp [Engine.spoilt]

/-- No error register of an engine that is not in ERROR is ever unspecified to the host, the encoder's among them. -/
theorem Engine.not_spoilt_error {g : Engine} (h : g.status ≠ .error) : g.spoilt .error = false := by
  simp [Engine.spoilt, h]

/-- A free ERR_KIND is never 3 (R26). -/
theorem freeErrKind_ne_three (v : Nat) : freeErrKind v ≠ 3 := by
  intro h
  have hv : v % 3 < 3 := Nat.mod_lt v (by decide)
  have := congrArg BitVec.toNat h
  simp [freeErrKind] at this
  omega

/-- A free ERR_POS is below MAX_LEN (R27). -/
theorem freeErrPos_admitted {p : Params} (h : p.admits 1 = true) (v : Nat) : p.admits (freeErrPos p v + 1) = true := by
  cases hm : p.maxLen with
  | none => simp only [Params.admits, hm]
  | some m =>
    simp only [Params.admits, hm, decide_eq_true_eq] at h
    simp only [Params.admits, freeErrPos, hm, decide_eq_true_eq]
    exact Nat.mod_lt v h

/-- A step operation runs exactly on a BUSY engine with the elements left that its rule asks for. -/
theorem Engine.runs_iff (g : Engine) (left : Bool) : g.runs left = true ↔ g.status = .busy ∧ left = true := by
  simp [Engine.runs]

/-- A legal digit is one with an entry in the encode table. -/
theorem encLut_isSome_iff (d : Digit) : (encLut d).isSome = true ↔ d.toNat < 45 := by
  have h : alphabet.length = 45 := rfl
  simp [encLut, h]

/-- The character written for a legal digit is the table's, whatever the free values are. -/
theorem State.charOf_legal {d : Digit} (s : State) (h : d.toNat < 45) : encLut d = some (s.charOf d) := by
  obtain ⟨v, hv⟩ := Option.isSome_iff_exists.1 ((encLut_isSome_iff d).2 h)
  simp [State.charOf, hv]

/-- A decode table hit is a legal digit (R86). -/
theorem decLut_legal {ch : Byte} {d : Digit} (h : decLut ch = some d) : d.toNat < 45 := by
  unfold decLut at h
  simp only at h
  repeat' split at h
  all_goals first
    | (obtain rfl := Option.some.inj h; decide)
    | (obtain rfl := Option.some.inj h; simp only [BitVec.toNat_ofNat]; omega)
    | exact absurd h (by simp)

/-- Looking up one character gives its digit, or its own position on a miss. -/
theorem State.digitAt_cases (p : Nat) (s : State) :
    (∃ d, decLut (s.readSrc .decoder p) = some d ∧ s.digitAt p = .ok d) ∨
    (decLut (s.readSrc .decoder p) = none ∧ s.digitAt p = .error p) := by
  unfold State.digitAt
  cases h : decLut (s.readSrc .decoder p) with
  | none => exact .inr ⟨rfl, rfl⟩
  | some d => exact .inl ⟨d, rfl, rfl⟩

/-- Looking up two characters: both digits, or the position of the first miss. -/
theorem State.tailDigits_cases (p : Nat) (s : State) :
    (∃ c d, decLut (s.readSrc .decoder p) = some c ∧ decLut (s.readSrc .decoder (p + 1)) = some d ∧
      s.tailDigits p = .ok (c, d)) ∨
    (∃ k, k < 2 ∧ decLut (s.readSrc .decoder (p + k)) = none ∧
      (∀ j, j < k → (decLut (s.readSrc .decoder (p + j))).isSome = true) ∧ s.tailDigits p = .error (p + k)) := by
  unfold State.tailDigits
  rcases s.digitAt_cases p with ⟨c, hc, h0⟩ | ⟨hn, h0⟩
  · rcases s.digitAt_cases (p + 1) with ⟨d, hd, h1⟩ | ⟨hn, h1⟩
    · exact .inl ⟨c, d, hc, hd, by simp [h0, h1]⟩
    · refine .inr ⟨1, by omega, hn, fun j hj => ?_, by simp [h0, h1]⟩
      obtain rfl : j = 0 := by omega
      simp [hc]
  · exact .inr ⟨0, by omega, hn, fun j hj => by omega, by simp [h0]⟩

/-- Looking up three characters: all digits, or the position of the first miss. -/
theorem State.tripletDigits_cases (p : Nat) (s : State) :
    (∃ c d e, decLut (s.readSrc .decoder p) = some c ∧ decLut (s.readSrc .decoder (p + 1)) = some d ∧
      decLut (s.readSrc .decoder (p + 2)) = some e ∧ s.tripletDigits p = .ok (c, d, e)) ∨
    (∃ k, k < 3 ∧ decLut (s.readSrc .decoder (p + k)) = none ∧
      (∀ j, j < k → (decLut (s.readSrc .decoder (p + j))).isSome = true) ∧ s.tripletDigits p = .error (p + k)) := by
  unfold State.tripletDigits
  rcases s.tailDigits_cases p with ⟨c, d, hc, hd, h0⟩ | ⟨k, hk, hn, hj, h0⟩
  · rcases s.digitAt_cases (p + 2) with ⟨e, he, h1⟩ | ⟨hn, h1⟩
    · exact .inl ⟨c, d, e, hc, hd, he, by simp [h0, h1]⟩
    · refine .inr ⟨2, by omega, hn, fun j hj => ?_, by simp [h0, h1]⟩
      obtain rfl | rfl : j = 0 ∨ j = 1 := by omega
      · simp [hc]
      · simp [hd]
  · exact .inr ⟨k, by omega, hn, hj, by simp [h0]⟩

end Sys2Proof.Machine
end

