-- ==== Sys2Proof/Laws/Step.lean ====
section
/-! SUPPORT. What a step can do, said once: the inversion lemmas of the fetch, the step and the step operations. -/

namespace Sys2Proof.Machine

/-- The state in which the fetched move is made. -/
def Fetched.state : Fetched → State
  | .word _ _ s => s
  | .access _ s => s
  | .idle s => s

/-- Fetching changes neither engine, nor the parameters, the output or the counters. -/
theorem State.fetch_frame (s : State) :
    s.fetch.state = { s with pending := s.fetch.state.pending, turns := s.turns.tail } := by
  unfold State.fetch
  split
  · unfold State.engineMove
    split <;> rfl
  · unfold State.hostMove
    split <;> rfl

theorem State.fetch_word_frame {s u : State} {p : Port} {w : Nat} (h : s.fetch = .word p w u) :
    u = { s with pending := u.pending, turns := s.turns.tail } := by
  have := s.fetch_frame
  rwa [h] at this

theorem State.fetch_access_frame {s u : State} {a : HostAccess} (h : s.fetch = .access a u) :
    u = { s with pending := u.pending, turns := s.turns.tail } := by
  have := s.fetch_frame
  rwa [h] at this

theorem State.fetch_idle_frame {s u : State} (h : s.fetch = .idle u) :
    u = { s with pending := u.pending, turns := s.turns.tail } := by
  have := s.fetch_frame
  rwa [h] at this

/-- On an engine's turn the step's word is its selector while it is BUSY, and there is none else. -/
theorem State.fetch_engine {s : State} {e : EngineId} {r : List Agent} (h : s.turns = .engine e :: r) :
    s.fetch = State.engineMove e { s with turns := r } := by
  unfold State.fetch State.agent State.takeTurn
  rw [h]
  rfl

/-- On the host's turn the step is the host's next move. -/
theorem State.fetch_host {s : State} {r : List Agent} (h : s.turns = .host :: r) :
    s.fetch = State.hostMove { s with turns := r } := by
  unfold State.fetch State.agent State.takeTurn
  rw [h]
  rfl

/-- A step that goes on: a decoded word executed, a host access made, or a turn passed. -/
theorem step_next_cases {s t : State} (h : step s = .next t) :
    (∃ p w u i, s.fetch = .word p w u ∧ decode p w = .ok i ∧ exec i u = .next t) ∨
    (∃ a u, s.fetch = .access a u ∧ hostAccess a u = .next t) ∨ s.fetch = .idle t := by
  unfold step at h
  split at h
  · rename_i p w u hf
    split at h
    · exact .inl ⟨p, w, u, _, hf, ‹_›, h⟩
    · cases h
  · exact .inr (.inl ⟨_, _, ‹_›, h⟩)
  · cases h
    exact .inr (.inr ‹_›)

/-- What a host access that goes on can do: reset, write one element of SRC or LEN of an engine that is not BUSY, or
present a value and leave all but the output, the count of free values and the record of R164 as it is. -/
theorem hostAccess_next_cases {a : HostAccess} {s t : State} (h : hostAccess a s = .next t) :
    (a = .reset ∧ t = s.applyReset) ∨
    (∃ e i v, a = .writeSrc e i v ∧ (s.engine e).status ≠ .busy ∧ s.params.admits (i + 1) = true ∧
      t = s.setEngine e ((s.engine e).writeSrc i v).touch) ∨
    (∃ e n, a = .writeLen e n ∧ (s.engine e).status ≠ .busy ∧ s.params.admits n = true ∧
      t = s.setEngine e ((s.engine e).writeLen n).touch) ∨
    (∃ e g o k, a.isRead = true ∧ t = ((s.setEngine e g).setOut o).drawn k ∧
      (g = s.engine e ∨ (a = .readStatus e ∧ g = (s.engine e).statusRead) ∨
        (∃ i, a = .readDst e i ∧ (s.engine e).status ≠ .busy ∧ g = (s.engine e).touch))) := by
  have shown : ∀ (e : EngineId) (o : Output), a.isRead = true → t = s.setOut o →
      (∃ e g o k, a.isRead = true ∧ t = ((s.setEngine e g).setOut o).drawn k ∧
        (g = s.engine e ∨ (a = .readStatus e ∧ g = (s.engine e).statusRead) ∨
          (∃ i, a = .readDst e i ∧ (s.engine e).status ≠ .busy ∧ g = (s.engine e).touch))) :=
    fun e o ha ht => ⟨e, s.engine e, o, 0, ha, ht.trans (by cases e <;> rfl), .inl rfl⟩
  have free : ∀ (e : EngineId) (f : Nat → Output), a.isRead = true → t = s.presentFree f →
      (∃ e g o k, a.isRead = true ∧ t = ((s.setEngine e g).setOut o).drawn k ∧
        (g = s.engine e ∨ (a = .readStatus e ∧ g = (s.engine e).statusRead) ∨
          (∃ i, a = .readDst e i ∧ (s.engine e).status ≠ .busy ∧ g = (s.engine e).touch))) :=
    fun e f ha ht => ⟨e, s.engine e, f (s.freeValue 0), 1, ha, ht.trans (by cases e <;> rfl), .inl rfl⟩
  cases a with
  | writeSrc e i v =>
    simp only [hostAccess, hostWriteSrc] at h
    split at h
    · cases h
    · split at h
      · cases h; exact .inr (.inl ⟨e, i, v, rfl, ‹_›, ‹_›, rfl⟩)
      · cases h
  | writeLen e n =>
    simp only [hostAccess, hostWriteLen] at h
    split at h
    · cases h
    · split at h
      · cases h; exact .inr (.inr (.inl ⟨e, n, rfl, ‹_›, ‹_›, rfl⟩))
      · cases h
  | readStatus e =>
    cases h
    exact .inr (.inr (.inr ⟨e, (s.engine e).statusRead, .status (s.engine e).status.code, 0, rfl, rfl, .inr (.inl ⟨rfl, rfl⟩)⟩))
  | readErrKind e =>
    refine .inr (.inr (.inr ?_))
    simp only [hostAccess, hostReadErrKind] at h
    split at h <;> cases h
    · exact free e _ rfl rfl
    · exact shown e _ rfl rfl
  | readErrPos e =>
    refine .inr (.inr (.inr ?_))
    simp only [hostAccess, hostReadErrPos] at h
    split at h <;> cases h
    · exact free e _ rfl rfl
    · exact shown e _ rfl rfl
  | readLen e =>
    cases h
    exact .inr (.inr (.inr (shown e _ rfl rfl)))
  | readOutLen e =>
    refine .inr (.inr (.inr ?_))
    simp only [hostAccess, hostReadOutLen] at h
    split at h
    · cases h; exact free e _ rfl rfl
    · split at h <;> cases h
      · exact shown e _ rfl rfl
      · exact free e _ rfl rfl
  | readSrc e i =>
    refine .inr (.inr (.inr ?_))
    simp only [hostAccess, hostReadSrc] at h
    split at h
    · cases h
    · split at h <;> cases h
      exact shown e _ rfl rfl
  | readDst e i =>
    refine .inr (.inr (.inr ?_))
    simp only [hostAccess, hostReadDst] at h
    split at h
    · cases h
    · split at h <;> cases h
      · exact shown e _ rfl rfl
      · exact ⟨e, (s.engine e).touch, _, 1, rfl, rfl, .inr (.inr ⟨i, rfl, ‹_›, rfl⟩)⟩
  | reset => cases h; exact .inl ⟨rfl, rfl⟩

section Operations
variable {s t : State}

/-- The forward direction for the encoder's pair: what a selected step answers. -/
theorem execEncPair_eq (x : BitVec 1) (hb : s.enc.status = .busy) (hl : 2 ≤ s.enc.remaining) {c d e : Digit}
    (hp : pack16 (merge16 (s.readSrc .encoder s.enc.pos) (s.readSrc .encoder (s.enc.pos + 1))) = (c, d, e)) :
    execEncPair x s = .next (s.setEngine .encoder ((((s.enc.writeDst (3 * (s.enc.pos / 2)) (s.charOf c)).writeDst
      (3 * (s.enc.pos / 2) + 1) (s.charOf d)).writeDst (3 * (s.enc.pos / 2) + 2) (s.charOf e)).advance 2)) := by
  unfold execEncPair
  rw [if_pos ((Engine.runs_iff _ _).2 ⟨hb, decide_eq_true hl⟩)]
  simp only [hp]

/-- The forward direction for the encoder's tail. -/
theorem execEncTail_eq (hb : s.enc.status = .busy) (hl : s.enc.remaining = 1) {c d : Digit}
    (hp : pack8 (s.readSrc .encoder s.enc.pos) = (c, d)) :
    execEncTail s = .next (s.setEngine .encoder (((s.enc.writeDst (3 * (s.enc.pos / 2)) (s.charOf c)).writeDst
      (3 * (s.enc.pos / 2) + 1) (s.charOf d)).advance 1)) := by
  unfold execEncTail
  rw [if_pos ((Engine.runs_iff _ _).2 ⟨hb, decide_eq_true hl⟩)]
  simp only [hp]

/-- The forward direction for a triplet whose characters are all in the alphabet. -/
theorem execDecTriplet_ok (hb : s.dec.status = .busy) (hl : 3 ≤ s.dec.remaining) {c d e : Digit}
    (hp : s.tripletDigits s.dec.pos = .ok (c, d, e)) :
    execDecTriplet s = .next ((s.setEngine .decoder (((s.dec.writeDst (2 * (s.dec.pos / 3))
      (s.tripletBytes (unpack16 c d e)).1).writeDst (2 * (s.dec.pos / 3) + 1)
        (s.tripletBytes (unpack16 c d e)).2).advance 3)).drawn (s.tripletDraws (unpack16 c d e))) := by
  unfold execDecTriplet
  rw [if_pos ((Engine.runs_iff _ _).2 ⟨hb, decide_eq_true hl⟩), hp]

/-- The forward direction for a triplet that misses. -/
theorem execDecTriplet_error (hb : s.dec.status = .busy) (hl : 3 ≤ s.dec.remaining) {q : Nat}
    (hp : s.tripletDigits s.dec.pos = .error q) :
    execDecTriplet s = .next (s.setEngine .decoder (s.dec.raise .invalidCharacter q)) := by
  unfold execDecTriplet
  rw [if_pos ((Engine.runs_iff _ _).2 ⟨hb, decide_eq_true hl⟩), hp]

/-- The forward direction for a tail whose characters are both in the alphabet. -/
theorem execDecTail_ok (hb : s.dec.status = .busy) (hl : s.dec.remaining = 2) {c d : Digit}
    (hp : s.tailDigits s.dec.pos = .ok (c, d)) :
    execDecTail s = .next ((s.setEngine .decoder ((s.dec.writeDst (2 * (s.dec.pos / 3))
      (s.tailByte (unpack8 c d))).advance 2)).drawn (s.tailDraws (unpack8 c d))) := by
  unfold execDecTail
  rw [if_pos ((Engine.runs_iff _ _).2 ⟨hb, decide_eq_true hl⟩), hp]

/-- The forward direction for a tail that misses. -/
theorem execDecTail_error (hb : s.dec.status = .busy) (hl : s.dec.remaining = 2) {q : Nat}
    (hp : s.tailDigits s.dec.pos = .error q) :
    execDecTail s = .next (s.setEngine .decoder (s.dec.raise .invalidCharacter q)) := by
  unfold execDecTail
  rw [if_pos ((Engine.runs_iff _ _).2 ⟨hb, decide_eq_true hl⟩), hp]

theorem execEncPair_next (x : BitVec 1) (h : execEncPair x s = .next t) :
    s.enc.status = .busy ∧ 2 ≤ s.enc.remaining ∧ ∃ c d e,
      pack16 (merge16 (s.readSrc .encoder s.enc.pos) (s.readSrc .encoder (s.enc.pos + 1))) = (c, d, e) ∧
      t = s.setEngine .encoder ((((s.enc.writeDst (3 * (s.enc.pos / 2)) (s.charOf c)).writeDst
        (3 * (s.enc.pos / 2) + 1) (s.charOf d)).writeDst (3 * (s.enc.pos / 2) + 2) (s.charOf e)).advance 2) := by
  unfold execEncPair at h
  split at h
  · rename_i hr
    obtain ⟨hb, hl⟩ := (Engine.runs_iff _ _).1 hr
    cases h
    exact ⟨hb, by simpa using hl, _, _, _, rfl, rfl⟩
  · cases h

theorem execEncTail_next (h : execEncTail s = .next t) :
    s.enc.status = .busy ∧ s.enc.remaining = 1 ∧ ∃ c d, pack8 (s.readSrc .encoder s.enc.pos) = (c, d) ∧
      t = s.setEngine .encoder (((s.enc.writeDst (3 * (s.enc.pos / 2)) (s.charOf c)).writeDst
        (3 * (s.enc.pos / 2) + 1) (s.charOf d)).advance 1) := by
  unfold execEncTail at h
  split at h
  · rename_i hr
    obtain ⟨hb, hl⟩ := (Engine.runs_iff _ _).1 hr
    cases h
    exact ⟨hb, by simpa using hl, _, _, rfl, rfl⟩
  · cases h

theorem execEncDone_next (h : execEncDone s = .next t) :
    s.enc.status = .busy ∧ s.enc.remaining = 0 ∧ t = s.setEngine .encoder s.enc.finish := by
  unfold execEncDone at h
  split at h
  · rename_i hr
    obtain ⟨hb, hl⟩ := (Engine.runs_iff _ _).1 hr
    cases h
    exact ⟨hb, by simpa using hl, rfl⟩
  · cases h

theorem execDecTriplet_next (h : execDecTriplet s = .next t) :
    s.dec.status = .busy ∧ 3 ≤ s.dec.remaining ∧
    ((∃ q, s.tripletDigits s.dec.pos = .error q ∧
        t = s.setEngine .decoder (s.dec.raise .invalidCharacter q)) ∨
     (∃ c d e, s.tripletDigits s.dec.pos = .ok (c, d, e) ∧
        t = (s.setEngine .decoder (((s.dec.writeDst (2 * (s.dec.pos / 3)) (s.tripletBytes (unpack16 c d e)).1).writeDst
          (2 * (s.dec.pos / 3) + 1) (s.tripletBytes (unpack16 c d e)).2).advance 3)).drawn
            (s.tripletDraws (unpack16 c d e)))) := by
  unfold execDecTriplet at h
  split at h
  · rename_i hr
    obtain ⟨hb, hl⟩ := (Engine.runs_iff _ _).1 hr
    refine ⟨hb, by simpa using hl, ?_⟩
    split at h
    · cases h
      exact .inl ⟨_, ‹_›, rfl⟩
    · cases h
      exact .inr ⟨_, _, _, ‹_›, rfl⟩
  · cases h

theorem execDecTail_next (h : execDecTail s = .next t) :
    s.dec.status = .busy ∧ s.dec.remaining = 2 ∧
    ((∃ q, s.tailDigits s.dec.pos = .error q ∧ t = s.setEngine .decoder (s.dec.raise .invalidCharacter q)) ∨
     (∃ c d, s.tailDigits s.dec.pos = .ok (c, d) ∧
        t = (s.setEngine .decoder ((s.dec.writeDst (2 * (s.dec.pos / 3)) (s.tailByte (unpack8 c d))).advance 2)).drawn
          (s.tailDraws (unpack8 c d)))) := by
  unfold execDecTail at h
  split at h
  · rename_i hr
    obtain ⟨hb, hl⟩ := (Engine.runs_iff _ _).1 hr
    refine ⟨hb, by simpa using hl, ?_⟩
    split at h
    · cases h
      exact .inl ⟨_, ‹_›, rfl⟩
    · cases h
      exact .inr ⟨_, _, ‹_›, rfl⟩
  · cases h

theorem execDecDangle_next (h : execDecDangle s = .next t) :
    s.dec.status = .busy ∧ s.dec.remaining = 1 ∧
    ((s.params.dangle = .ignore ∧ t = s.setEngine .decoder (s.dec.advance 1)) ∨
     (s.params.dangle = .reject ∧ t = s.setEngine .decoder (s.dec.raise .lengthError s.dec.pos))) := by
  unfold execDecDangle at h
  split at h
  · rename_i hr
    obtain ⟨hb, hl⟩ := (Engine.runs_iff _ _).1 hr
    refine ⟨hb, by simpa using hl, ?_⟩
    split at h
    · cases h
      exact .inl ⟨‹_›, rfl⟩
    · cases h
      exact .inr ⟨‹_›, rfl⟩
  · cases h

theorem execDecDone_next (h : execDecDone s = .next t) :
    s.dec.status = .busy ∧ s.dec.remaining = 0 ∧ t = s.setEngine .decoder s.dec.finish := by
  unfold execDecDone at h
  split at h
  · rename_i hr
    obtain ⟨hb, hl⟩ := (Engine.runs_iff _ _).1 hr
    cases h
    exact ⟨hb, by simpa using hl, rfl⟩
  · cases h

end Operations

end Sys2Proof.Machine
end

