-- ==== Sys2Proof/Laws/PerInstr.lean ====
section
/-! SUPPORT. Statements made once per instruction. EncodeFits: the word of an operation has no bit beyond its port. -/

namespace Sys2Proof.Laws.EncodeFits

/-- The encoded word fits the width of its port (R68, opcode_table.json). -/
def Statement (i : Instr) : Prop := (encode i).bits < 2 ^ (encode i).port.width

theorem encDone : Statement .encDone := by unfold Statement; decide
theorem encTail : Statement .encTail := by unfold Statement; decide
theorem encPair (x : BitVec 1) : Statement (.encPair x) := by
  have := x.isLt
  simp only [Statement, encode, Port.width]
  omega
theorem decDone : Statement .decDone := by unfold Statement; decide
theorem decDangle : Statement .decDangle := by unfold Statement; decide
theorem decTail : Statement .decTail := by unfold Statement; decide
theorem decTriplet : Statement .decTriplet := by unfold Statement; decide
theorem startEncode : Statement .startEncode := by unfold Statement; decide
theorem startDecode : Statement .startDecode := by unfold Statement; decide
theorem merge16 (a b : Byte) : Statement (.merge16 a b) := by
  have := a.isLt
  have := b.isLt
  simp only [Statement, encode, Port.width, Func.width]
  omega
theorem split16 (n : BitVec 16) : Statement (.split16 n) := n.isLt
theorem pack16 (n : BitVec 16) : Statement (.pack16 n) := n.isLt
theorem pack8 (n : Byte) : Statement (.pack8 n) := n.isLt
theorem unpack16 (c d e : Digit) : Statement (.unpack16 c d e) := by
  have := c.isLt
  have := d.isLt
  have := e.isLt
  simp only [Statement, encode, Port.width, Func.width]
  omega
theorem unpack8 (c d : Digit) : Statement (.unpack8 c d) := by
  have := c.isLt
  have := d.isLt
  simp only [Statement, encode, Port.width, Func.width]
  omega
theorem lutI2c (idx : Digit) : Statement (.lutI2c idx) := idx.isLt
theorem lutC2i (ch : Byte) : Statement (.lutC2i ch) := ch.isLt

end Sys2Proof.Laws.EncodeFits
end

