-- ==== Sys2Proof/Certificates/Slice0/Obligations.lean ====
section
/-! DEFINITION. The statements for the provers, from the numbered rules of spec/. In every statement about a next state
`t`, the equation `t = { s with … }` is the frame: what it does not name is unchanged; a buffer taken from `t` itself is
described element by element beside it, through the model's read of one element. -/

open Sys2Proof Sys2Proof.Machine

-- Words and steps

/-- Every operation's word decodes to the operation, with every operand at every value its bits admit. -/
def Obligations.DecodeInvertsEncode : Prop :=
  ∀ i : Instr, decode (encode i).port (encode i).bits = .ok i

/-- Every word that decodes is the word of the operation it decodes to: no word has two meanings on one port. -/
def Obligations.EncodeInvertsDecode : Prop :=
  ∀ (p : Port) (w : Nat) (i : Instr), decode p w = .ok i → encode i = { port := p, bits := w }

/-- Every word that fits its port is assigned an operation, and no other word is (R70: there is no illegal selector). -/
def Obligations.DecodeAssignsExactlyFittingWords : Prop :=
  ∀ (p : Port) (w : Nat), (w < 2 ^ p.width → ∃ i, decode p w = .ok i) ∧
    (2 ^ p.width ≤ w → decode p w = .error (.wordTooWide p))

/-- A few words written out from opcode_table.json decode to the operations they stand for. -/
def Obligations.WrittenWordsDecode : Prop :=
  decode .sel3 0b000 = .ok .encDone ∧ decode .sel3 0b001 = .ok .encTail ∧ decode .sel3 0b010 = .ok (.encPair 0) ∧
  decode .sel3 0b011 = .ok (.encPair 1) ∧ decode .sel3 0b100 = .ok .decDone ∧ decode .sel3 0b101 = .ok .decDangle ∧
  decode .sel3 0b110 = .ok .decTail ∧ decode .sel3 0b111 = .ok .decTriplet ∧
  decode .start 0b0 = .ok .startEncode ∧ decode .start 0b1 = .ok .startDecode ∧
  decode (.func .merge16) 0b0100000101000010 = .ok (.merge16 65 66) ∧
  decode (.func .unpack16) 0b001000001011001011 = .ok (.unpack16 11 11 8)

/-- A step runs the decoded operation: where the agent whose turn it is presents a word that decodes to `i`, the step
is `exec i` in the state with that turn, and for the host that move, taken off; the rest of that state is `s`. -/
def Obligations.StepRunsDecodedWord : Prop :=
  ∀ (s u : State) (p : Port) (w : Nat) (i : Instr), s.fetch = .word p w u → decode p w = .ok i →
    step s = exec i u ∧ u = { s with turns := s.turns.tail, pending := u.pending } ∧
    (u.pending = s.pending ∨ ∃ m, s.pending = m :: u.pending)

/-- The encoder's turn (R69, R101): while BUSY the operation is chosen by `LEN - POS`; else no step is taken. -/
def Obligations.EncoderTurnRunsSelectedOperation : Prop :=
  ∀ (s : State) (r : List Agent), s.turns = .engine .encoder :: r →
    (s.enc.status = .busy → s.enc.len - s.enc.pos = 0 → step s = exec .encDone { s with turns := r }) ∧
    (s.enc.status = .busy → s.enc.len - s.enc.pos = 1 → step s = exec .encTail { s with turns := r }) ∧
    (s.enc.status = .busy → s.enc.len - s.enc.pos = 2 → step s = exec (.encPair 0) { s with turns := r }) ∧
    (s.enc.status = .busy → 3 ≤ s.enc.len - s.enc.pos → step s = exec (.encPair 1) { s with turns := r }) ∧
    (s.enc.status ≠ .busy → step s = .next { s with turns := r })

/-- The decoder's turn (R70, R110): while BUSY the operation is chosen by `LEN - POS`; else no step is taken. -/
def Obligations.DecoderTurnRunsSelectedOperation : Prop :=
  ∀ (s : State) (r : List Agent), s.turns = .engine .decoder :: r →
    (s.dec.status = .busy → s.dec.len - s.dec.pos = 0 → step s = exec .decDone { s with turns := r }) ∧
    (s.dec.status = .busy → s.dec.len - s.dec.pos = 1 → step s = exec .decDangle { s with turns := r }) ∧
    (s.dec.status = .busy → s.dec.len - s.dec.pos = 2 → step s = exec .decTail { s with turns := r }) ∧
    (s.dec.status = .busy → 3 ≤ s.dec.len - s.dec.pos → step s = exec .decTriplet { s with turns := r }) ∧
    (s.dec.status ≠ .busy → step s = .next { s with turns := r })

/-- The host's turn: a START command, an operand word of a function, an access, or nothing (log 16). -/
def Obligations.HostTurnMakesPendingMove : Prop :=
  ∀ (s : State) (r : List Agent), s.turns = .host :: r →
    (∀ m, s.pending = .start 0 :: m → step s = exec .startEncode { s with turns := r, pending := m }) ∧
    (∀ m, s.pending = .start 1 :: m → step s = exec .startDecode { s with turns := r, pending := m }) ∧
    (∀ f w i m, s.pending = .eval f w :: m → decode (.func f) w = .ok i →
      step s = exec i { s with turns := r, pending := m }) ∧
    (∀ a m, s.pending = .access a :: m → step s = hostAccess a { s with turns := r, pending := m }) ∧
    (s.pending = [] → step s = .next { s with turns := r })

/-- A step operation outside its precondition is refused by name and has no effect (log 14, the model's choice);
no BUSY engine's turn ever ends so, by `BusyEngineProgresses`. -/
def Obligations.StepOperationsRefuseOutsidePrecondition : Prop :=
  ∀ s : State,
    (s.enc.status ≠ .busy ∨ s.enc.len - s.enc.pos ≠ 0 → exec .encDone s = .refused (.stepNotSelected .encoder)) ∧
    (s.enc.status ≠ .busy ∨ s.enc.len - s.enc.pos ≠ 1 → exec .encTail s = .refused (.stepNotSelected .encoder)) ∧
    (s.enc.status ≠ .busy ∨ s.enc.len - s.enc.pos < 2 →
      ∀ x, exec (.encPair x) s = .refused (.stepNotSelected .encoder)) ∧
    (s.dec.status ≠ .busy ∨ s.dec.len - s.dec.pos ≠ 0 → exec .decDone s = .refused (.stepNotSelected .decoder)) ∧
    (s.dec.status ≠ .busy ∨ s.dec.len - s.dec.pos ≠ 1 → exec .decDangle s = .refused (.stepNotSelected .decoder)) ∧
    (s.dec.status ≠ .busy ∨ s.dec.len - s.dec.pos ≠ 2 → exec .decTail s = .refused (.stepNotSelected .decoder)) ∧
    (s.dec.status ≠ .busy ∨ s.dec.len - s.dec.pos < 3 → exec .decTriplet s = .refused (.stepNotSelected .decoder))

-- The scalar functions

/-- `merge16` (R90): `n = a*256 + b`, in bits the concatenation of the two bytes; nothing else changes. -/
def Obligations.MergeIsBigEndianPair : Prop :=
  ∀ (a b : Byte) (s : State), ∃ n : BitVec 16, exec (.merge16 a b) s = .next { s with out := .pairValue n } ∧
    n.toNat = a.toNat * 256 + b.toNat ∧ n = a ++ b

/-- `split16` (R91): `a = n div 256`, `b = n mod 256`, the bit fields 15:8 and 7:0; the inverse of `merge16`. -/
def Obligations.SplitIsInverseOfMerge : Prop :=
  (∀ (n : BitVec 16) (s : State), ∃ a b : Byte, exec (.split16 n) s = .next { s with out := .bytePair a b } ∧
    a.toNat = n.toNat / 256 ∧ b.toNat = n.toNat % 256 ∧ a = n.extractLsb' 8 8 ∧ b = n.extractLsb' 0 8 ∧
    merge16 a b = n) ∧
  ∀ a b : Byte, split16 (merge16 a b) = (a, b)

/-- `pack16` (R92): `c = n mod 45`, `d = (n div 45) mod 45`, `e = n div 2025`, least-significant first. -/
def Obligations.PackSixteenGivesMixedRadixDigits : Prop :=
  ∀ (n : BitVec 16) (s : State), ∃ c d e : Digit, exec (.pack16 n) s = .next { s with out := .threeDigits c d e } ∧
    c.toNat = n.toNat % 45 ∧ d.toNat = n.toNat / 45 % 45 ∧ e.toNat = n.toNat / 2025

/-- The range of `pack16`'s digits (R93): 44, 44 and 32, and a third digit of 32 only with `c + 45*d <= 735`. -/
def Obligations.PackSixteenDigitsInRange : Prop :=
  ∀ n : BitVec 16, (pack16 n).1.toNat ≤ 44 ∧ (pack16 n).2.1.toNat ≤ 44 ∧ (pack16 n).2.2.toNat ≤ 32 ∧
    ((pack16 n).2.2.toNat = 32 ↔ 64800 ≤ n.toNat) ∧
    ((pack16 n).2.2.toNat = 32 → (pack16 n).1.toNat + 45 * (pack16 n).2.1.toNat ≤ 735)

/-- `pack8` (R94): `d = n div 45 <= 5`, `c = n mod 45`; the first two digits of `pack16`, whose third is then 0. -/
def Obligations.PackEightGivesTwoDigits : Prop :=
  ∀ (n : Byte) (s : State), ∃ c d : Digit, exec (.pack8 n) s = .next { s with out := .twoDigits c d } ∧
    c.toNat = n.toNat % 45 ∧ d.toNat = n.toNat / 45 ∧ c.toNat ≤ 44 ∧ d.toNat ≤ 5 ∧
    pack16 (BitVec.ofNat 16 n.toNat) = (c, d, 0)

/-- `unpack16` on digits 0 to 44 (R95): `n = c + d*45 + e*2025`, at most 91124; the inverse of `pack16`. -/
def Obligations.UnpackSixteenGivesTripletValue : Prop :=
  (∀ (c d e : Digit) (s : State), c.toNat ≤ 44 → d.toNat ≤ 44 → e.toNat ≤ 44 →
    ∃ n : BitVec 17, exec (.unpack16 c d e) s = .next { s with out := .tripletValue n } ∧
      n.toNat = c.toNat + d.toNat * 45 + e.toNat * 2025 ∧ n.toNat ≤ 91124) ∧
  ∀ n : BitVec 16, (unpack16 (pack16 n).1 (pack16 n).2.1 (pack16 n).2.2).toNat = n.toNat

/-- `unpack8` on digits 0 to 44 (R96): `n = c + d*45`, at most 2024; the inverse of `pack8`. -/
def Obligations.UnpackEightGivesTailValue : Prop :=
  (∀ (c d : Digit) (s : State), c.toNat ≤ 44 → d.toNat ≤ 44 →
    ∃ n : BitVec 11, exec (.unpack8 c d) s = .next { s with out := .tailValue n } ∧
      n.toNat = c.toNat + d.toNat * 45 ∧ n.toNat ≤ 2024) ∧
  ∀ n : Byte, (unpack8 (pack8 n).1 (pack8 n).2).toNat = n.toNat

/-- Outside the domain of `unpack16` and `unpack8` the operation completes with some result and changes nothing else;
the result is a free value, and no clause says which (log 8, the model's choice). -/
def Obligations.UnpackOutsideDomainCompletes : Prop :=
  (∀ (c d e : Digit) (s : State), 45 ≤ c.toNat ∨ 45 ≤ d.toNat ∨ 45 ≤ e.toNat →
    ∃ n : BitVec 17, exec (.unpack16 c d e) s = .next { s with out := .tripletValue n, draws := s.draws + 1 }) ∧
  ∀ (c d : Digit) (s : State), 45 ≤ c.toNat ∨ 45 ≤ d.toNat →
    ∃ n : BitVec 11, exec (.unpack8 c d) s = .next { s with out := .tailValue n, draws := s.draws + 1 }

/-- The inverse laws (R98): four on the documented domains, two on the images, and the uniqueness of the
positional representation of digits in range. -/
def Obligations.PackingInverseLaws : Prop :=
  (∀ a b : Byte, split16 (merge16 a b) = (a, b)) ∧
  (∀ n : BitVec 16, merge16 (split16 n).1 (split16 n).2 = n) ∧
  (∀ n : BitVec 16, (unpack16 (pack16 n).1 (pack16 n).2.1 (pack16 n).2.2).toNat = n.toNat) ∧
  (∀ n : Byte, (unpack8 (pack8 n).1 (pack8 n).2).toNat = n.toNat) ∧
  (∀ c d e : Digit, c.toNat ≤ 44 → d.toNat ≤ 44 → e.toNat ≤ 44 → (unpack16 c d e).toNat ≤ 65535 →
    pack16 (BitVec.ofNat 16 (unpack16 c d e).toNat) = (c, d, e)) ∧
  (∀ c d : Digit, c.toNat ≤ 44 → d.toNat ≤ 44 → (unpack8 c d).toNat ≤ 255 →
    pack8 (BitVec.ofNat 8 (unpack8 c d).toNat) = (c, d)) ∧
  ∀ c d e c' d' e' : Digit, c.toNat ≤ 44 → d.toNat ≤ 44 → e.toNat ≤ 44 → c'.toNat ≤ 44 → d'.toNat ≤ 44 →
    e'.toNat ≤ 44 → unpack16 c d e = unpack16 c' d' e' → c = c' ∧ d = d' ∧ e = e'

-- The alphabet tables

/-- `ENC_LUT` and `DEC_LUT` are inverse to each other (R82), and every index 0 to 44 has a character. -/
def Obligations.AlphabetIsBijective : Prop :=
  (∀ i : Digit, i.toNat ≤ 44 → ∃ ch, encLut i = some ch ∧ decLut ch = some i) ∧
  (∀ (ch : Byte) (i : Digit), decLut ch = some i → i.toNat ≤ 44 ∧ encLut i = some ch) ∧
  ∀ (i j : Digit) (ch : Byte), encLut i = some ch → encLut j = some ch → i = j

/-- The encode table by its closed form and its nine listed signs (R81). -/
def Obligations.EncodeTableContents : Prop :=
  (∀ i : Digit, i.toNat ≤ 9 → encLut i = some (BitVec.ofNat 8 (0x30 + i.toNat))) ∧
  (∀ i : Digit, 10 ≤ i.toNat → i.toNat ≤ 35 → encLut i = some (BitVec.ofNat 8 (0x41 + (i.toNat - 10)))) ∧
  encLut 36 = some 0x20 ∧ encLut 37 = some 0x24 ∧ encLut 38 = some 0x25 ∧ encLut 39 = some 0x2A ∧
  encLut 40 = some 0x2B ∧ encLut 41 = some 0x2D ∧ encLut 42 = some 0x2E ∧ encLut 43 = some 0x2F ∧
  encLut 44 = some 0x3A

/-- The decode table is the inverse of the encode table (R83): a hit with `i` where `i` is the index of the character,
a miss where there is none; 45 of the 256 entries hit. -/
def Obligations.DecodeTableInvertsEncodeTable : Prop :=
  (∀ (ch : Byte) (i : Digit), i.toNat ≤ 44 → encLut i = some ch → decLut ch = some i) ∧
  (∀ ch : Byte, (∀ i : Digit, i.toNat ≤ 44 → encLut i ≠ some ch) → decLut ch = none) ∧
  ((List.range 256).filter (fun c => (decLut (BitVec.ofNat 8 c)).isSome)).length = 45

/-- `LUT_I2C` of 0 to 44 (R84): the table's character on the output, nothing else changed. -/
def Obligations.IndexLookupGivesCharacter : Prop :=
  ∀ (idx : Digit) (s : State), idx.toNat ≤ 44 →
    ∃ ch, encLut idx = some ch ∧ exec (.lutI2c idx) s = .next { s with out := .character ch }

/-- `LUT_I2C` of 45 to 63 (R85: "the result is unspecified and no fault is raised") completes with some character, a
free value (log 7, the model's choice). -/
def Obligations.IndexLookupReservedCompletes : Prop :=
  ∀ (idx : Digit) (s : State), 45 ≤ idx.toNat →
    ∃ ch, exec (.lutI2c idx) s = .next { s with out := .character ch, draws := s.draws + 1 }

/-- `LUT_C2I` (R86): hit = 1 and the index on a hit, hit = 0 on a miss, which is a result and no fault. -/
def Obligations.CharacterLookupGivesHitAndIndex : Prop :=
  ∀ (ch : Byte) (s : State),
    (∀ i : Digit, decLut ch = some i → i.toNat ≤ 44 ∧ exec (.lutC2i ch) s = .next { s with out := .lookup 1 i }) ∧
    (decLut ch = none →
      ∃ v : Digit, exec (.lutC2i ch) s = .next { s with out := .lookup 0 v, draws := s.draws + 1 })

-- The encoder's steps

/-- `ENC_PAIR` (R102): from bytes `a`, `b` at the cursor, `n = a*256 + b`, the characters of `n`'s three digits at
`3*i`, `3*i + 1`, `3*i + 2` with `i = POS div 2`; every other element of DST as before; POS + 2; nothing else. -/
def Obligations.EncodePairWritesTriplet : Prop :=
  ∀ (x : BitVec 1) (s : State), s.enc.status = .busy → 2 ≤ s.enc.len - s.enc.pos →
    ∃ (t : State) (c d e : Digit), exec (.encPair x) s = .next t ∧
      t = { s with enc := { s.enc with pos := s.enc.pos + 2, dst := t.enc.dst } } ∧
      (let n := (s.readSrc .encoder s.enc.pos).toNat * 256 + (s.readSrc .encoder (s.enc.pos + 1)).toNat
       c.toNat = n % 45 ∧ d.toNat = n / 45 % 45 ∧ e.toNat = n / 2025) ∧
      encLut c = some (t.readDst .encoder (3 * (s.enc.pos / 2))) ∧
      encLut d = some (t.readDst .encoder (3 * (s.enc.pos / 2) + 1)) ∧
      encLut e = some (t.readDst .encoder (3 * (s.enc.pos / 2) + 2)) ∧
      ∀ a, a < 3 * (s.enc.pos / 2) ∨ 3 * (s.enc.pos / 2) + 2 < a → t.readDst .encoder a = s.readDst .encoder a

/-- `ENC_TAIL` (R103): the last byte's two digits' characters at `3*i`, `3*i + 1`; every other element of DST as
before; POS + 1; nothing else. -/
def Obligations.EncodeTailWritesTwoCharacters : Prop :=
  ∀ s : State, s.enc.status = .busy → s.enc.len - s.enc.pos = 1 →
    ∃ (t : State) (c d : Digit), exec .encTail s = .next t ∧
      t = { s with enc := { s.enc with pos := s.enc.pos + 1, dst := t.enc.dst } } ∧
      c.toNat = (s.readSrc .encoder s.enc.pos).toNat % 45 ∧ d.toNat = (s.readSrc .encoder s.enc.pos).toNat / 45 ∧
      encLut c = some (t.readDst .encoder (3 * (s.enc.pos / 2))) ∧
      encLut d = some (t.readDst .encoder (3 * (s.enc.pos / 2) + 1)) ∧
      ∀ a, a < 3 * (s.enc.pos / 2) ∨ 3 * (s.enc.pos / 2) + 1 < a → t.readDst .encoder a = s.readDst .encoder a

/-- `ENC_DONE` (R104): STATUS is DONE, nothing else changes, and OUT_LEN reads R105's value. -/
def Obligations.EncodeDoneSetsStatusAndLength : Prop :=
  ∀ s : State, s.enc.status = .busy → s.enc.len - s.enc.pos = 0 →
    exec .encDone s = .next { s with enc := { s.enc with status := .done } } ∧
    Engine.outLen .encoder { s.enc with status := .done } =
      some (3 * (s.enc.len / 2) + if s.enc.len % 2 = 1 then 2 else 0)

-- The decoder's steps

/-- `DEC_TRIPLET` (R111). Three alphabet characters: two bytes at `2*i`, `2*i + 1` with `i = POS div 3`, those of
`n = c + 45d + 2025e` reduced to 16 bits (for an overflow group under the alternative policy of R11 no byte is claimed
and only the count of free values moves); every other element as before; POS + 3. Otherwise InvalidCharacter at the
first miss in read order: STATUS, ERR_KIND, ERR_POS written, nothing else. -/
def Obligations.DecodeTripletWritesPairOrFaults : Prop :=
  ∀ s : State, s.dec.status = .busy → 3 ≤ s.dec.len - s.dec.pos →
    (∀ c d e : Digit, decLut (s.readSrc .decoder s.dec.pos) = some c →
      decLut (s.readSrc .decoder (s.dec.pos + 1)) = some d → decLut (s.readSrc .decoder (s.dec.pos + 2)) = some e →
      ∃ t : State, exec .decTriplet s = .next t ∧
        t = { s with dec := { s.dec with pos := s.dec.pos + 3, dst := t.dec.dst }, draws := t.draws } ∧
        (let n := c.toNat + d.toNat * 45 + e.toNat * 2025
         n ≤ 65535 ∨ s.params.overflow = .wrap →
          t.draws = s.draws ∧ (t.readDst .decoder (2 * (s.dec.pos / 3))).toNat = n / 256 % 256 ∧
          (t.readDst .decoder (2 * (s.dec.pos / 3) + 1)).toNat = n % 256) ∧
        ∀ a, a < 2 * (s.dec.pos / 3) ∨ 2 * (s.dec.pos / 3) + 1 < a → t.readDst .decoder a = s.readDst .decoder a) ∧
    (∀ k, k < 3 → s.validAt (s.dec.pos + k) = false → (∀ j, j < k → s.validAt (s.dec.pos + j) = true) →
      exec .decTriplet s = .next
        { s with dec := { s.dec with status := .error, errKind := .invalidCharacter, errPos := s.dec.pos + k } })

/-- `DEC_TAIL` (R112). Two alphabet characters: one byte at `2*i`, that of `n = c + 45d` reduced to 8 bits; every other
element as before; POS + 2. Otherwise InvalidCharacter at the first miss in read order. -/
def Obligations.DecodeTailWritesByteOrFaults : Prop :=
  ∀ s : State, s.dec.status = .busy → s.dec.len - s.dec.pos = 2 →
    (∀ c d : Digit, decLut (s.readSrc .decoder s.dec.pos) = some c →
      decLut (s.readSrc .decoder (s.dec.pos + 1)) = some d →
      ∃ t : State, exec .decTail s = .next t ∧
        t = { s with dec := { s.dec with pos := s.dec.pos + 2, dst := t.dec.dst }, draws := t.draws } ∧
        (let n := c.toNat + d.toNat * 45
         n ≤ 255 ∨ s.params.overflow = .wrap →
          t.draws = s.draws ∧ (t.readDst .decoder (2 * (s.dec.pos / 3))).toNat = n % 256) ∧
        ∀ a, a ≠ 2 * (s.dec.pos / 3) → t.readDst .decoder a = s.readDst .decoder a) ∧
    (∀ k, k < 2 → s.validAt (s.dec.pos + k) = false → (∀ j, j < k → s.validAt (s.dec.pos + j) = true) →
      exec .decTail s = .next
        { s with dec := { s.dec with status := .error, errKind := .invalidCharacter, errPos := s.dec.pos + k } })

/-- `DEC_DANGLE` (R113): ignored, POS + 1, or the fault LengthError at POS, by DANGLE_POLICY. The character plays no
part: no hypothesis speaks of it. -/
def Obligations.DecodeDangleFollowsPolicy : Prop :=
  ∀ s : State, s.dec.status = .busy → s.dec.len - s.dec.pos = 1 →
    (s.params.dangle = .ignore →
      exec .decDangle s = .next { s with dec := { s.dec with pos := s.dec.pos + 1 } }) ∧
    (s.params.dangle = .reject →
      exec .decDangle s = .next
        { s with dec := { s.dec with status := .error, errKind := .lengthError, errPos := s.dec.pos } })

/-- `DEC_DONE` (R114): STATUS is DONE, nothing else changes, and OUT_LEN reads R115's value. -/
def Obligations.DecodeDoneSetsStatusAndLength : Prop :=
  ∀ s : State, s.dec.status = .busy → s.dec.len - s.dec.pos = 0 →
    exec .decDone s = .next { s with dec := { s.dec with status := .done } } ∧
    Engine.outLen .decoder { s.dec with status := .done } =
      some (2 * (s.dec.len / 3) + if s.dec.len % 3 = 2 then 1 else 0)

-- The commands and the host's accesses

/-- `ENCODE` (R126): START on an encoder that is not BUSY clears POS and the error registers and makes it BUSY; the
buffers are the call's from then on (R164, the model's record, log 27). -/
def Obligations.StartEncodeBeginsCall : Prop :=
  ∀ s : State, s.enc.status ≠ .busy →
    exec .startEncode s = .next
      { s with enc := { s.enc with pos := 0, errKind := .none, errPos := 0, status := .busy, owner := .call } }

/-- `DECODE` (R127): START on a decoder that is not BUSY, in ERROR too, clears POS and the error registers and makes it
BUSY; the buffers are the call's from then on (R164, the model's record, log 27). -/
def Obligations.StartDecodeBeginsCall : Prop :=
  ∀ s : State, s.dec.status ≠ .busy →
    exec .startDecode s = .next
      { s with dec := { s.dec with pos := 0, errKind := .none, errPos := 0, status := .busy, owner := .call } }

/-- START while BUSY, whose effect R165 leaves unspecified, is refused by name (log 11, the model's choice). -/
def Obligations.StartWhileBusyRefused : Prop :=
  ∀ s : State, (s.enc.status = .busy → exec .startEncode s = .refused (.startWhileBusy .encoder)) ∧
    (s.dec.status = .busy → exec .startDecode s = .refused (.startWhileBusy .decoder))

/-- Host reads never change the block (R133): only the output the host sees, and the model's own count of free values
and record of whose the buffers are (log 27, no register of the block), which only a read of STATUS or DST moves. -/
def Obligations.HostReadsChangeNothing : Prop :=
  ∀ (a : HostAccess) (s t : State), a.isRead = true → hostAccess a s = .next t →
    t = { s with out := t.out, draws := t.draws, enc := { s.enc with owner := t.enc.owner },
                 dec := { s.dec with owner := t.dec.owner } } ∧
    ∀ e : EngineId, a ≠ .readStatus e → a.touches e = false → (t.engine e).owner = (s.engine e).owner

/-- What the host reads in each register (R25 to R28): the codes of STATUS and ERR_KIND, ERR_POS, LEN while not BUSY
(R24), and OUT_LEN in DONE and ERROR; in every state that meets the invariant the encoder's ERR_KIND and ERR_POS read 0
(R125). Of a call for which the host broke R164 the result itself (R172: ERR_KIND and ERR_POS in ERROR, OUT_LEN in DONE)
is left to `AccessBeforeStatusReadSpoilsResult`. Besides the output a read of STATUS moves the model's own record of whose
the buffers are (log 27). -/
def Obligations.HostRegisterReadValues : Prop :=
  ∀ (e : EngineId) (s : State),
    hostAccess (.readStatus e) s = .next { (s.setEngine e { s.engine e with owner :=
        if (s.engine e).owner = .call ∧ ((s.engine e).status = .done ∨ (s.engine e).status = .error) then .host
        else (s.engine e).owner }) with out := .status (match (s.engine e).status with
      | .idle => 0 | .busy => 1 | .done => 2 | .error => 3) } ∧
    ((s.engine e).status ≠ .busy → hostAccess (.readLen e) s = .next { s with out := .len (s.engine e).len }) ∧
    ((s.engine e).owner ≠ .broken ∨ (s.engine e).status ≠ .error →
      hostAccess (.readErrKind e) s = .next { s with out := .errKind (match (s.engine e).errKind with
        | .none => 0 | .invalidCharacter => 1 | .lengthError => 2) } ∧
      hostAccess (.readErrPos e) s = .next { s with out := .errPos (s.engine e).errPos }) ∧
    (s.Inv → hostAccess (.readErrKind .encoder) s = .next { s with out := .errKind 0 } ∧
      hostAccess (.readErrPos .encoder) s = .next { s with out := .errPos 0 }) ∧
    ((s.engine e).status = .error → hostAccess (.readOutLen e) s = .next { s with out := .outLen 0 }) ∧
    (s.enc.owner ≠ .broken → s.enc.status = .done → hostAccess (.readOutLen .encoder) s =
      .next { s with out := .outLen (3 * (s.enc.len / 2) + if s.enc.len % 2 = 1 then 2 else 0) }) ∧
    (s.dec.owner ≠ .broken → s.dec.status = .done → hostAccess (.readOutLen .decoder) s =
      .next { s with out := .outLen (2 * (s.dec.len / 3) + if s.dec.len % 3 = 2 then 1 else 0) })

/-- The host's accesses to SRC, LEN and DST while the engine is not BUSY: its writes of `SRC[i]` and `LEN` outside the
window of R164 (what each changes and what it leaves), its read of `SRC[i]`, which R164 does not forbid, and its read of
a result it has seen to be DONE. The window, from START to the host's read of DONE or ERROR, is kept by the model's
own record `owner` (logs 12 and 27, DEDUCED from R164); inside it `AccessBeforeStatusReadSpoilsResult` speaks. -/
def Obligations.HostBufferAccessesOutsideCall : Prop :=
  ∀ (e : EngineId) (s : State), (s.engine e).status ≠ .busy →
    ((s.engine e).owner ≠ .call →
      (∀ i v, s.params.admits (i + 1) = true → ∃ t, hostAccess (.writeSrc e i v) s = .next t ∧
        t = s.setEngine e { s.engine e with src := (t.engine e).src } ∧
        t.readSrc e i = v ∧ ∀ j, j ≠ i → t.readSrc e j = s.readSrc e j) ∧
      ∀ n, s.params.admits n = true →
        hostAccess (.writeLen e n) s = .next (s.setEngine e { s.engine e with len := n })) ∧
    (∀ i, s.params.admits (i + 1) = true →
      hostAccess (.readSrc e i) s = .next { s with out := .element (s.readSrc e i) }) ∧
    ((s.engine e).owner = .host → ∀ i n, (s.engine e).status = .done → (s.engine e).outLen e = some n → i < n →
      hostAccess (.readDst e i) s = .next { s with out := .element (s.readDst e i) })

/-- While an engine is BUSY its buffers and LEN are refused to the host (R164 leaves the effect unspecified; log 12, the
model's choice; for the read of SRC log 24), but a read of LEN gives LEN (log 24, the model's choice: R24 gives the read
while STATUS is not BUSY). -/
def Obligations.BuffersRefusedWhileBusy : Prop :=
  ∀ (e : EngineId) (s : State), (s.engine e).status = .busy →
    (∀ i v, hostAccess (.writeSrc e i v) s = .refused (.bufferWhileBusy e)) ∧
    (∀ n, hostAccess (.writeLen e n) s = .refused (.bufferWhileBusy e)) ∧
    (∀ i, hostAccess (.readSrc e i) s = .refused (.bufferWhileBusy e)) ∧
    (∀ i, hostAccess (.readDst e i) s = .refused (.bufferWhileBusy e)) ∧
    hostAccess (.readLen e) s = .next { s with out := .len (s.engine e).len }

/-- The window of R164 between the end of a call and the host's read of it (log 27, DEDUCED). A write of SRC or LEN is
made, a read of DST gives some value, which no clause constrains, and each spoils the call's result, which R172 names: in
DONE the reads of DST and OUT_LEN, in ERROR those of ERR_KIND (never 3, R26) and ERR_POS (below MAX_LEN, R27) complete
with some value. It stays spoilt in every step but a START or a reset. -/
def Obligations.AccessBeforeStatusReadSpoilsResult : Prop :=
  (∀ (e : EngineId) (s : State), (s.engine e).status ≠ .busy → (s.engine e).owner = .call →
    (∀ i v, s.params.admits (i + 1) = true → ∃ t, hostAccess (.writeSrc e i v) s = .next t ∧
      t = s.setEngine e { s.engine e with src := (t.engine e).src, owner := .broken } ∧
      t.readSrc e i = v ∧ ∀ j, j ≠ i → t.readSrc e j = s.readSrc e j) ∧
    (∀ n, s.params.admits n = true →
      hostAccess (.writeLen e n) s = .next (s.setEngine e { s.engine e with len := n, owner := .broken })) ∧
    ∀ i, ∃ v, hostAccess (.readDst e i) s = .next
      { (s.setEngine e { s.engine e with owner := .broken }) with out := .element v, draws := s.draws + 1 }) ∧
  (∀ (e : EngineId) (s : State), (s.engine e).status ≠ .busy → (s.engine e).owner = .broken →
    (∀ i, ∃ v, hostAccess (.readDst e i) s = .next { s with out := .element v, draws := s.draws + 1 }) ∧
    ((s.engine e).status = .done →
      ∃ n, hostAccess (.readOutLen e) s = .next { s with out := .outLen n, draws := s.draws + 1 }) ∧
    ((s.engine e).status = .error → s.params.admits 1 = true →
      (∃ k, k ≠ 3 ∧ hostAccess (.readErrKind e) s = .next { s with out := .errKind k, draws := s.draws + 1 }) ∧
      ∃ p, s.params.admits (p + 1) = true ∧
        hostAccess (.readErrPos e) s = .next { s with out := .errPos p, draws := s.draws + 1 })) ∧
  ∀ (s t : State) (e : EngineId), (s.engine e).status ≠ .busy → (s.engine e).owner = .broken → step s = .next t →
    (t.engine e).owner = .broken ∨
    t.engine e = { s.engine e with pos := 0, errKind := .none, errPos := 0, status := .busy, owner := .call } ∨
    t.engine e = Engine.reset

/-- Host accesses outside what is specified, in an engine that is not BUSY: an element of SRC at or beyond MAX_LEN faults
and a length above it is refused (log 13, the model's choice); a read of DST that is no part of a result completes with
some value (U8, log 5), and so does a read of OUT_LEN in IDLE, and in BUSY (R28, U7, log 6); no clause says which value. -/
def Obligations.HostAccessesOutsideSpecifiedRange : Prop :=
  ∀ (e : EngineId) (s : State),
    ((s.engine e).status ≠ .busy →
      (∀ i, s.params.admits (i + 1) = false → (∀ v, hostAccess (.writeSrc e i v) s = .fault (.noSuchElement e i)) ∧
        hostAccess (.readSrc e i) s = .fault (.noSuchElement e i)) ∧
      (∀ n, s.params.admits n = false → hostAccess (.writeLen e n) s = .refused (.lenAboveMax e n)) ∧
      ((s.engine e).owner = .host → ∀ i, (s.engine e).status ≠ .done ∨ outputLength e (s.engine e).len ≤ i →
        ∃ v, hostAccess (.readDst e i) s = .next { s with out := .element v, draws := s.draws + 1 })) ∧
    ((s.engine e).status = .idle ∨ (s.engine e).status = .busy →
      ∃ n, hostAccess (.readOutLen e) s = .next { s with out := .outLen n, draws := s.draws + 1 })

-- Reset

/-- The state right after reset (R34): every register at its reset value in both engines, OUT_LEN unspecified, and
every element of SRC and DST unspecified: it reads as the free value of that element. -/
def Obligations.ResetValues : Prop :=
  ∀ e : EngineId, (State.reset.engine e).status = .idle ∧ (State.reset.engine e).pos = 0 ∧
    (State.reset.engine e).len = 0 ∧ (State.reset.engine e).errKind = .none ∧ (State.reset.engine e).errPos = 0 ∧
    (State.reset.engine e).outLen e = none ∧
    ∀ i, State.reset.readSrc e i = Config.unwrittenElement 0 (srcSpace e) i ∧
      State.reset.readDst e i = Config.unwrittenElement 0 (dstSpace e) i

/-- Asserting `rst` in any state, a BUSY one too, puts both engines into the reset state (R160, R163): the registers of
R34, every element of SRC and DST unspecified anew, and an engine whose turn then comes takes no step. -/
def Obligations.ResetReachesResetState : Prop :=
  ∀ s : State, ∃ t, hostAccess .reset s = .next t ∧
    (∀ e : EngineId, (t.engine e).status = .idle ∧ (t.engine e).pos = 0 ∧ (t.engine e).len = 0 ∧
      (t.engine e).errKind = .none ∧ (t.engine e).errPos = 0 ∧
      ∀ i, t.readSrc e i = Config.unwrittenElement (s.epoch + 1) (srcSpace e) i ∧
        t.readDst e i = Config.unwrittenElement (s.epoch + 1) (dstSpace e) i) ∧
    t.params = s.params ∧ t.pending = s.pending ∧ t.turns = s.turns ∧
    ∀ (e : EngineId) (r : List Agent), step { t with turns := .engine e :: r } = .next { t with turns := r }

-- Invariants and rules of the whole block

/-- The invariant holds right after reset. -/
def Obligations.ResetMeetsInvariant : Prop := State.reset.Inv

/-- Every step keeps the invariant: the ranges of LEN, POS and ERR_POS, the alignment of the cursor during a call, the
error registers, the encoder's STATUS, LengthError only under REJECT, the canonical form of the buffers, and a call in
progress owning its buffers. -/
def Obligations.StepKeepsInvariant : Prop := ∀ s t : State, s.Inv → step s = .next t → t.Inv

/-- The encoder cannot fault (R106): no step puts it into ERROR or writes its error registers away from 0, and its
STATUS stays, or moves from IDLE or DONE to BUSY, from BUSY to DONE, or the encoder is reset. -/
def Obligations.EncoderNeverFaults : Prop :=
  ∀ s t : State, s.enc.status ≠ .error → s.enc.errKind = .none → s.enc.errPos = 0 → step s = .next t →
    t.enc.status ≠ .error ∧ t.enc.errKind = .none ∧ t.enc.errPos = 0 ∧
    (t.enc.status = s.enc.status ∨ (t.enc.status = .busy ∧ s.enc.status ≠ .busy) ∨
      (t.enc.status = .done ∧ s.enc.status = .busy) ∨ t.enc = Engine.reset)

/-- The complete list of faults (R140) and their entry (R143): the only ways into ERROR are a miss inside the consumed
group and, under REJECT, a single character left; and the step writes ERR_KIND, ERR_POS and STATUS only. -/
def Obligations.OnlyListedFaultsEnterError : Prop :=
  ∀ s t : State, s.dec.status ≠ .error → step s = .next t → t.dec.status = .error →
    s.dec.status = .busy ∧
    t = { s with turns := s.turns.tail,
                 dec := { s.dec with status := .error, errKind := t.dec.errKind, errPos := t.dec.errPos } } ∧
    t.dec.outLen .decoder = some 0 ∧
    ((t.dec.errKind = .invalidCharacter ∧ 2 ≤ s.dec.len - s.dec.pos ∧ s.dec.pos ≤ t.dec.errPos ∧
        t.dec.errPos < s.dec.pos + min (s.dec.len - s.dec.pos) 3 ∧ s.validAt t.dec.errPos = false ∧
        ∀ j, s.dec.pos ≤ j → j < t.dec.errPos → s.validAt j = true) ∨
     (t.dec.errKind = .lengthError ∧ s.params.dangle = .reject ∧ s.dec.len - s.dec.pos = 1 ∧
        t.dec.errPos = s.dec.len - 1))

/-- A result is stable (R25, R172): in DONE and ERROR, and in IDLE, a step leaves STATUS, the error registers and DST as
they are, and LEN, of which OUT_LEN is a function, unless it is the host's own write of LEN; or it begins a call, or is a
reset. And the result is spoilt (R164, log 27) only by an access of the host that R164 forbids. -/
def Obligations.ResultStableUntilStartOrReset : Prop :=
  ∀ (s t : State) (e : EngineId), (s.engine e).status ≠ .busy → step s = .next t →
    ((t.engine e).status = (s.engine e).status ∧ (t.engine e).errKind = (s.engine e).errKind ∧
      (t.engine e).errPos = (s.engine e).errPos ∧ (t.engine e).pos = (s.engine e).pos ∧
      (t.engine e).dst = (s.engine e).dst ∧ (∀ i, t.readDst e i = s.readDst e i) ∧
      (((t.engine e).len = (s.engine e).len ∧ (t.engine e).outLen e = (s.engine e).outLen e) ∨
        ∃ n u, s.fetch = .access (.writeLen e n) u ∧ (t.engine e).len = n) ∧
      ((t.engine e).owner = .broken → (s.engine e).owner = .broken ∨
        ((s.engine e).owner = .call ∧ ∃ a u, s.fetch = .access a u ∧ a.touches e = true))) ∨
    t.engine e = { s.engine e with pos := 0, errKind := .none, errPos := 0, status := .busy, owner := .call } ∨
    t.engine e = Engine.reset

/-- During a call the input is immutable (R54, R107, R118): no step of any agent changes SRC or LEN of a BUSY engine
but a reset. -/
def Obligations.InputImmutableDuringCall : Prop :=
  ∀ (s t : State) (e : EngineId), (s.engine e).status = .busy → step s = .next t →
    ((t.engine e).src = (s.engine e).src ∧ (t.engine e).len = (s.engine e).len) ∨ t.engine e = Engine.reset

/-- The parameters are no state (R33): no step changes them. -/
def Obligations.ParametersNeverChange : Prop := ∀ s t : State, step s = .next t → t.params = s.params

/-- No step of one engine reads or writes anything of the other (R20): the other engine, the host's moves and the
parameters are untouched, and the engine's own next state is the same whatever the other engine holds. -/
def Obligations.EnginesAreIndependent : Prop :=
  (∀ (s t : State) (r : List Agent), s.turns = .engine .encoder :: r → step s = .next t →
    t = { s with turns := r, enc := t.enc } ∧
    ∀ g : Engine, step { s with dec := g } = .next { t with dec := g }) ∧
  ∀ (s t : State) (r : List Agent), s.turns = .engine .decoder :: r → step s = .next t →
    t = { s with turns := r, dec := t.dec, draws := t.draws } ∧
    ∀ g : Engine, step { s with enc := g } = .next { t with enc := g }

/-- Any order of the two engines' steps gives the same state (R154). -/
def Obligations.EngineStepsCommute : Prop :=
  ∀ (s : State) (r : List Agent),
    runSteps 2 { s with turns := .engine .encoder :: .engine .decoder :: r } =
      runSteps 2 { s with turns := .engine .decoder :: .engine .encoder :: r }

/-- Progress (R171): the turn of a BUSY engine always ends in a next state, in which the engine has moved its cursor
up, within LEN, or has ended the call in DONE or ERROR with the cursor where it was. -/
def Obligations.BusyEngineProgresses : Prop :=
  ∀ (s : State) (e : EngineId) (r : List Agent), s.turns = .engine e :: r → (s.engine e).status = .busy →
    ∃ t, step s = .next t ∧ t.turns = r ∧
      (((t.engine e).status = .busy ∧ (s.engine e).pos < (t.engine e).pos ∧ (t.engine e).pos ≤ (t.engine e).len) ∨
        (((t.engine e).status = .done ∨ (t.engine e).status = .error) ∧ (t.engine e).pos = (s.engine e).pos))

/-- Every call ends in at most `LEN + 1` steps of its engine, in DONE or ERROR (R171), whatever turns come after. -/
def Obligations.EveryCallEnds : Prop :=
  ∀ (s : State) (e : EngineId) (r : List Agent), (s.engine e).status = .busy → (s.engine e).pos = 0 →
    s.turns = List.replicate ((s.engine e).len + 1) (.engine e) ++ r →
    ∃ k t, k ≤ (s.engine e).len + 1 ∧ runSteps k s = .next t ∧
      ((t.engine e).status = .done ∨ (t.engine e).status = .error)

/-- A step of a call writes no element of DST at or beyond the output length of its LEN (R42), in every state that
meets the invariant. -/
def Obligations.WritesStayInsideOutput : Prop :=
  ∀ (s t : State) (e : EngineId) (r : List Agent), s.Inv → s.turns = .engine e :: r → (s.engine e).status = .busy →
    step s = .next t → ∀ a, outputLength e (s.engine e).len ≤ a → t.readDst e a = s.readDst e a

-- Whole calls

/-- ENCODE as a whole (R100, R105, R170): `LEN div 2`, plus one if LEN is odd, plus one steps of the encoder end the call
in DONE; every pair's three characters and the tail's two stand where R67 puts them; DST beyond OUT_LEN, the input and
the decoder are as before. -/
def Obligations.EncodeCallComputesString : Prop :=
  ∀ (s : State) (r : List Agent), s.enc.status = .busy → s.enc.pos = 0 →
    s.turns = List.replicate (s.enc.len / 2 + s.enc.len % 2 + 1) (.engine .encoder) ++ r →
    ∃ t, runSteps (s.enc.len / 2 + s.enc.len % 2 + 1) s = .next t ∧
      t = { s with turns := r, enc := { s.enc with status := .done, pos := s.enc.len, dst := t.enc.dst } } ∧
      (∀ i, i < s.enc.len / 2 → ∃ c d e : Digit,
        (let n := (s.readSrc .encoder (2 * i)).toNat * 256 + (s.readSrc .encoder (2 * i + 1)).toNat
         c.toNat = n % 45 ∧ d.toNat = n / 45 % 45 ∧ e.toNat = n / 2025) ∧
        encLut c = some (t.readDst .encoder (3 * i)) ∧ encLut d = some (t.readDst .encoder (3 * i + 1)) ∧
        encLut e = some (t.readDst .encoder (3 * i + 2))) ∧
      (s.enc.len % 2 = 1 → ∃ c d : Digit,
        c.toNat = (s.readSrc .encoder (s.enc.len - 1)).toNat % 45 ∧
        d.toNat = (s.readSrc .encoder (s.enc.len - 1)).toNat / 45 ∧
        encLut c = some (t.readDst .encoder (3 * (s.enc.len / 2))) ∧
        encLut d = some (t.readDst .encoder (3 * (s.enc.len / 2) + 1))) ∧
      ∀ a, outputLength .encoder s.enc.len ≤ a → t.readDst .encoder a = s.readDst .encoder a

/-- DECODE of a string whose consumed characters are all in the alphabet and whose dangling character, if any, is
ignored (R110, R115, R170): it ends in DONE, the error registers untouched, in R170's number of steps, with each group's bytes where
R67 puts them (of an overflow group only under WRAP), and DST beyond OUT_LEN as before. -/
def Obligations.DecodeCallComputesBytes : Prop :=
  ∀ (s : State) (r : List Agent), s.dec.status = .busy → s.dec.pos = 0 →
    (∀ i, i < consumedLength s.dec.len → s.validAt i = true) →
    (s.dec.len % 3 = 1 → s.params.dangle = .ignore) →
    s.turns = List.replicate (s.dec.len / 3 + (if s.dec.len % 3 = 0 then 0 else 1) + 1) (.engine .decoder) ++ r →
    ∃ t, runSteps (s.dec.len / 3 + (if s.dec.len % 3 = 0 then 0 else 1) + 1) s = .next t ∧
      t = { s with turns := r, draws := t.draws,
                   dec := { s.dec with status := .done, pos := s.dec.len, dst := t.dec.dst } } ∧
      (∀ (i : Nat) (c d e : Digit), i < s.dec.len / 3 → decLut (s.readSrc .decoder (3 * i)) = some c →
        decLut (s.readSrc .decoder (3 * i + 1)) = some d → decLut (s.readSrc .decoder (3 * i + 2)) = some e →
        let n := c.toNat + d.toNat * 45 + e.toNat * 2025
        n ≤ 65535 ∨ s.params.overflow = .wrap →
          (t.readDst .decoder (2 * i)).toNat = n / 256 % 256 ∧ (t.readDst .decoder (2 * i + 1)).toNat = n % 256) ∧
      (∀ c d : Digit, s.dec.len % 3 = 2 → decLut (s.readSrc .decoder (s.dec.len - 2)) = some c →
        decLut (s.readSrc .decoder (s.dec.len - 1)) = some d →
        let n := c.toNat + d.toNat * 45
        n ≤ 255 ∨ s.params.overflow = .wrap → (t.readDst .decoder (2 * (s.dec.len / 3))).toNat = n % 256) ∧
      ∀ a, outputLength .decoder s.dec.len ≤ a → t.readDst .decoder a = s.readDst .decoder a

/-- DECODE of a string with an invalid character in a consumed group (R116, R144, R170): it ends in ERROR with
InvalidCharacter at the smallest such position `p`, in `p div 3 + 1` steps, the cursor at the group that holds it. -/
def Obligations.DecodeCallReportsFirstInvalid : Prop :=
  ∀ (s : State) (r : List Agent) (p : Nat), s.dec.status = .busy → s.dec.pos = 0 →
    p < consumedLength s.dec.len → s.validAt p = false → (∀ j, j < p → s.validAt j = true) →
    s.turns = List.replicate (p / 3 + 1) (.engine .decoder) ++ r →
    ∃ t, runSteps (p / 3 + 1) s = .next t ∧
      t = { s with turns := r, draws := t.draws,
                   dec := { s.dec with status := .error, errKind := .invalidCharacter, errPos := p,
                                       pos := 3 * (p / 3), dst := t.dec.dst } }

/-- DECODE under REJECT of a string with a dangling character and every earlier one valid (R142, R170): it ends in ERROR
with LengthError at `LEN - 1`, in `LEN div 3 + 1` steps, whatever the dangling character is. -/
def Obligations.DecodeCallRejectsDangling : Prop :=
  ∀ (s : State) (r : List Agent), s.dec.status = .busy → s.dec.pos = 0 → s.dec.len % 3 = 1 →
    s.params.dangle = .reject → (∀ j, j < s.dec.len - 1 → s.validAt j = true) →
    s.turns = List.replicate (s.dec.len / 3 + 1) (.engine .decoder) ++ r →
    ∃ t, runSteps (s.dec.len / 3 + 1) s = .next t ∧
      t = { s with turns := r, draws := t.draws,
                   dec := { s.dec with status := .error, errKind := .lengthError, errPos := s.dec.len - 1,
                                       pos := s.dec.len - 1, dst := t.dec.dst } }

/-- The round trip (R108): a DECODE of the string an ENCODE wrote ends in DONE with the encoder's bytes and their
number, under either value of DANGLE_POLICY and of OVERFLOW_POLICY. `s` begins the ENCODE, `t` ends it; `u` begins the
DECODE of the string in `t`, in any state otherwise. -/
def Obligations.DecodeOfEncodeGivesBytesBack : Prop :=
  ∀ (s t u : State) (r q : List Agent), s.enc.status = .busy → s.enc.pos = 0 →
    s.turns = List.replicate (s.enc.len / 2 + s.enc.len % 2 + 1) (.engine .encoder) ++ r →
    runSteps (s.enc.len / 2 + s.enc.len % 2 + 1) s = .next t →
    u.dec.status = .busy → u.dec.pos = 0 → some u.dec.len = t.enc.outLen .encoder →
    (∀ i, i < u.dec.len → u.readSrc .decoder i = t.readDst .encoder i) →
    u.turns = List.replicate (u.dec.len / 3 + (if u.dec.len % 3 = 0 then 0 else 1) + 1) (.engine .decoder) ++ q →
    ∃ v, runSteps (u.dec.len / 3 + (if u.dec.len % 3 = 0 then 0 else 1) + 1) u = .next v ∧
      v.dec.status = .done ∧ v.dec.outLen .decoder = some s.enc.len ∧
      ∀ i, i < s.enc.len → v.readDst .decoder i = s.readSrc .encoder i

/-- A call is a function of its input (R130, R109): two encoders started on equal inputs give equal strings, whatever
else the two states hold. -/
def Obligations.EncodeResultDependsOnlyOnInput : Prop :=
  ∀ (s t s' t' : State) (r r' : List Agent), s.enc.status = .busy → s.enc.pos = 0 → s'.enc.status = .busy →
    s'.enc.pos = 0 → s'.enc.len = s.enc.len →
    (∀ i, i < s.enc.len → s'.readSrc .encoder i = s.readSrc .encoder i) →
    s.turns = List.replicate (s.enc.len / 2 + s.enc.len % 2 + 1) (.engine .encoder) ++ r →
    s'.turns = List.replicate (s.enc.len / 2 + s.enc.len % 2 + 1) (.engine .encoder) ++ r' →
    runSteps (s.enc.len / 2 + s.enc.len % 2 + 1) s = .next t →
    runSteps (s.enc.len / 2 + s.enc.len % 2 + 1) s' = .next t' →
    t'.enc.status = t.enc.status ∧
    ∀ k, k < outputLength .encoder s.enc.len → t'.readDst .encoder k = t.readDst .encoder k
end

