-- ==== Sys2Proof/Tests/Slice0.lean ====
section
/-! SUPPORT. The model's own tests. Expected values come from the spec: the source's examples S1 to S15, the derived
vectors of 95_test_vectors.md sections 2.1 to 2.8 and the programs P1 to P9, each named where it is used; and one
witness for every clause of a statement with hypotheses. -/

namespace Sys2Proof.Tests

open Sys2Proof Sys2Proof.Machine

/-- The next state of an outcome, if it is one. -/
def nextOf (o : Host.Outcome State Fault Refusal) : Option State :=
  match o with
  | .next s => some s
  | .fault _ => none
  | .refused _ => none

/-- The refusal of an outcome, if it is one. -/
def refusalOf (o : Host.Outcome State Fault Refusal) : Option Refusal :=
  match o with
  | .next _ => none
  | .fault _ => none
  | .refused r => some r

/-- The fault of an outcome, if it is one. -/
def faultOf (o : Host.Outcome State Fault Refusal) : Option Fault :=
  match o with
  | .next _ => none
  | .fault f => some f
  | .refused _ => none

/-- A buffer holding some elements from position 0. -/
def bufferOf (bs : List Byte) : Memory := bs.zipIdx.map fun x => (x.2, x.1)

/-- An engine BUSY at a position on an input, in a call. -/
def busyOn (bs : List Byte) (pos : Nat) : Engine :=
  { pos := pos, len := bs.length, status := .busy, errKind := .none, errPos := 0, src := bufferOf bs, dst := [],
    owner := .call }

/-- The encoder BUSY at a position on an input, with the next `k` turns. -/
def encodes (bs : List Byte) (pos k : Nat) : State :=
  { State.reset with enc := busyOn bs pos, turns := List.replicate k (.engine .encoder) }

/-- The decoder BUSY at a position on an input, with the next `k` turns. -/
def decodes (bs : List Byte) (pos k : Nat) : State :=
  { State.reset with dec := busyOn bs pos, turns := List.replicate k (.engine .decoder) }

/-- The same under REJECT. -/
def rejecting (s : State) : State := { s with params := { s.params with dangle := .reject } }

/-- A decoder whose call on three characters has ended in DONE, with two bytes of output and the buffers as given. -/
def decoded (o : Owner) : State :=
  { State.reset with dec := { busyOn [0x42, 0x42, 0x38] 3 with status := .done, dst := [(0, 65), (1, 66)], owner := o } }

/-- The host about to make one move. -/
def hostMoves (m : HostMove) : State := { State.reset with pending := [m], turns := [.host] }

-- WellFormed: an ill-formed operation for each check

theorem test_wf_refuses_unpack16_c : Instr.wf (.unpack16 45 0 0) = false := by decide
theorem test_wf_refuses_unpack16_d : Instr.wf (.unpack16 0 45 0) = false := by decide
theorem test_wf_refuses_unpack16_e : Instr.wf (.unpack16 0 0 63) = false := by decide
theorem test_wf_refuses_unpack8_c : Instr.wf (.unpack8 45 0) = false := by decide
theorem test_wf_refuses_unpack8_d : Instr.wf (.unpack8 0 45) = false := by decide
theorem test_wf_refuses_lutI2c : Instr.wf (.lutI2c 45) = false := by decide
theorem test_wf_accepts_largest_digits : Instr.wf (.unpack16 44 44 44) = true := by decide

-- Decode: each row's word written out from opcode_table.json

theorem test_decode_encDone : decode .sel3 0b000 = .ok .encDone := rfl
theorem test_decode_encTail : decode .sel3 0b001 = .ok .encTail := rfl
theorem test_decode_encPair : decode .sel3 0b010 = .ok (.encPair 0) ∧ decode .sel3 0b011 = .ok (.encPair 1) := ⟨rfl, rfl⟩
theorem test_decode_decDone : decode .sel3 0b100 = .ok .decDone := rfl
theorem test_decode_decDangle : decode .sel3 0b101 = .ok .decDangle := rfl
theorem test_decode_decTail : decode .sel3 0b110 = .ok .decTail := rfl
theorem test_decode_decTriplet : decode .sel3 0b111 = .ok .decTriplet := rfl
theorem test_decode_start : decode .start 0b0 = .ok .startEncode ∧ decode .start 0b1 = .ok .startDecode := ⟨rfl, rfl⟩
/-- `aaaaaaaabbbbbbbb`, S5's bytes 65 and 66. -/
theorem test_decode_merge16 : decode (.func .merge16) 0b0100000101000010 = .ok (.merge16 65 66) := rfl
theorem test_decode_split16 : decode (.func .split16) 0b0100000101000010 = .ok (.split16 16706) := rfl
theorem test_decode_pack16 : decode (.func .pack16) 0b1111111111111111 = .ok (.pack16 65535) := rfl
theorem test_decode_pack8 : decode (.func .pack8) 0b00100001 = .ok (.pack8 33) := rfl
/-- `eeeeeeddddddcccccc`: e = 8, d = 6, c = 38. -/
theorem test_decode_unpack16 : decode (.func .unpack16) 0b001000000110100110 = .ok (.unpack16 38 6 8) := rfl
/-- `ddddddcccccc`: d = 1, c = 8. -/
theorem test_decode_unpack8 : decode (.func .unpack8) 0b000001001000 = .ok (.unpack8 8 1) := rfl
theorem test_decode_lutI2c : decode (.func .lutI2c) 0b100100 = .ok (.lutI2c 36) := rfl
theorem test_decode_lutC2i : decode (.func .lutC2i) 0b01100001 = .ok (.lutC2i 0x61) := rfl
theorem test_decode_rejects_wide_selector : decode .sel3 8 = .error (.wordTooWide .sel3) := rfl
theorem test_decode_rejects_wide_operand : decode (.func .lutI2c) 64 = .error (.wordTooWide (.func .lutI2c)) := rfl
/-- Two bytes of the word of `merge16(65, 66)`, the low byte first. -/
theorem test_decode_bytes : decodeBytes (.func .merge16) [66, 65] = .ok (.merge16 65 66) := rfl
theorem test_table_word : decodeTableWord 8 6 = some .decTail ∧ decodeTableWord 16 16706 = some (.merge16 65 66) ∧
    decodeTableWord 1 1 = some .startDecode := by decide

-- The bare word is the first operation that runs after reset

theorem test_fetch_word_selector : (State.reset.withFetchWord 8 7).fetch =
    .word .sel3 7 { State.reset with dec := busyOn [0x30, 0x30, 0x30] 0 } := by decide
theorem test_fetch_word_runs : (nextOf (step (State.reset.withFetchWord 8 7))).map (fun t => (t.dec.pos, t.dec.dst)) =
    some (3, [(0, 0), (1, 0)]) := by decide
theorem test_fetch_word_start : (nextOf (step (State.reset.withFetchWord 1 1))).map (fun t => t.dec.status) = some .busy := by
  decide

-- The tables (section 2.1)

theorem test_encLut_edges : encLut 0 = some 0x30 ∧ encLut 9 = some 0x39 ∧ encLut 10 = some 0x41 ∧ encLut 35 = some 0x5A ∧
    encLut 36 = some 0x20 ∧ encLut 37 = some 0x24 ∧ encLut 44 = some 0x3A ∧ encLut 45 = none := by decide
theorem test_decLut_edges : decLut 0x2C = none ∧ decLut 0x3B = none ∧ decLut 0x40 = none ∧ decLut 0x5B = none ∧
    decLut 0x61 = none ∧ decLut 0xFF = none ∧ decLut 0x3A = some 44 ∧ decLut 0x5A = some 35 := by decide
theorem test_lutI2c : (nextOf (exec (.lutI2c 36) State.reset)).map (·.out) = some (.character 0x20) := by decide
theorem test_lutI2c_reserved : (nextOf (exec (.lutI2c 45) State.reset)).map (·.draws) = some 1 := by decide
theorem test_lutC2i : (nextOf (exec (.lutC2i 0x42) State.reset)).map (·.out) = some (.lookup 1 11) := by decide
theorem test_lutC2i_miss : (nextOf (exec (.lutC2i 0x69) State.reset)).map (·.draws) = some 1 := by decide

-- The scalar functions (S5 to S7, section 2.2)

theorem test_merge16 : (nextOf (exec (.merge16 1 0) State.reset)).map (·.out) = some (.pairValue 256) := by decide
theorem test_split16 : (nextOf (exec (.split16 255) State.reset)).map (·.out) = some (.bytePair 0 255) := by decide
theorem test_pack16 : (nextOf (exec (.pack16 18533) State.reset)).map (·.out) = some (.threeDigits 38 6 9) := by decide
theorem test_pack16_largest : (nextOf (exec (.pack16 65535) State.reset)).map (·.out) = some (.threeDigits 15 16 32) := by
  decide
theorem test_pack8 : (nextOf (exec (.pack8 53) State.reset)).map (·.out) = some (.twoDigits 8 1) := by decide
theorem test_pack8_largest : (nextOf (exec (.pack8 255) State.reset)).map (·.out) = some (.twoDigits 30 5) := by decide
theorem test_unpack16 : (nextOf (exec (.unpack16 16 16 32) State.reset)).map (·.out) = some (.tripletValue 65536) := by decide
theorem test_unpack16_largest : (nextOf (exec (.unpack16 44 44 44) State.reset)).map (·.out) = some (.tripletValue 91124) := by
  decide
theorem test_unpack8 : (nextOf (exec (.unpack8 8 1) State.reset)).map (·.out) = some (.tailValue 53) := by decide
theorem test_unpack8_largest : (nextOf (exec (.unpack8 44 44) State.reset)).map (·.out) = some (.tailValue 2024) := by decide

-- The encoder's steps (P1, P2)

/-- P1: bytes 65, 66 give `BB8`. -/
theorem test_encPair : (nextOf (step (encodes [65, 66] 0 1))).map (fun t => (t.enc.pos, t.enc.dst)) =
    some (2, [(0, 0x42), (1, 0x42), (2, 0x38)]) := by decide
/-- P2's second step: bytes 108, 108 at 2 give space, `V`, `D` at 3 to 5. -/
theorem test_encPair_second : (nextOf (step (encodes [72, 101, 108, 108] 2 1))).map (fun t => t.enc.dst) =
    some [(3, 0x20), (4, 0x56), (5, 0x44)] := by decide
/-- P2's fourth step, on a shorter input: the byte 33 at 2 gives `X0` at 3, 4. -/
theorem test_encTail : (nextOf (step (encodes [111, 33, 33] 2 1))).map (fun t => (t.enc.pos, t.enc.dst)) =
    some (3, [(3, 0x58), (4, 0x30)]) := by decide
theorem test_encDone : (nextOf (step (encodes [65, 66] 2 1))).map (fun t => (t.enc.status, t.enc.outLen .encoder)) =
    some (.done, some 3) := by decide

-- The decoder's steps (P3 to P7, sections 2.4 to 2.7)

/-- `BB8` gives 65, 66. -/
theorem test_decTriplet : (nextOf (step (decodes [0x42, 0x42, 0x38] 0 1))).map (fun t => (t.dec.pos, t.dec.dst)) =
    some (3, [(0, 65), (1, 66)]) := by decide
/-- P5's second step: `B?8` faults at position 4, the cursor and DST unchanged. -/
theorem test_decTriplet_faults : (nextOf (step (decodes [0x42, 0x42, 0x38, 0x42, 0x3F, 0x38] 3 1))).map
    (fun t => (t.dec.status, t.dec.errKind, t.dec.errPos, t.dec.pos)) =
      some (.error, .invalidCharacter, 4, 3) := by decide
theorem test_decTriplet_fault_writes_nothing : (nextOf (step (decodes [0x42, 0x42, 0x38, 0x42, 0x3F, 0x38] 3 1))).map
    (fun t => t.dec.dst) = some [] := by decide
/-- P7's tail: `::` is 2024 and gives 232 under WRAP. -/
theorem test_decTail_wraps : (nextOf (step (decodes [0x3A, 0x3A] 0 1))).map (fun t => (t.dec.pos, t.dec.dst)) =
    some (2, [(0, 232)]) := by decide
/-- Section 2.6: `0b` faults at 1. -/
theorem test_decTail_faults : (nextOf (step (decodes [0x30, 0x62] 0 1))).map (fun t => (t.dec.status, t.dec.errPos)) =
    some (.error, 1) := by decide
/-- Section 2.7: `b` under both policies; it is not validated. -/
theorem test_decDangle_ignored : (nextOf (step (decodes [0x62] 0 1))).map (fun t => (t.dec.status, t.dec.pos)) =
    some (.busy, 1) := by decide
theorem test_decDangle_rejected : (nextOf (step (rejecting (decodes [0x62] 0 1)))).map
    (fun t => (t.dec.status, t.dec.errKind, t.dec.errPos, t.dec.pos)) = some (.error, .lengthError, 0, 0) := by decide
theorem test_decDone : (nextOf (step (decodes [0x42, 0x42, 0x38, 0x58] 4 1))).map
    (fun t => (t.dec.status, t.dec.outLen .decoder)) = some (.done, some 2) := by decide

-- The commands and the host's accesses (section 2.8)

theorem test_startEncode : (nextOf (step (hostMoves (.start 0)))).map (fun t => (t.enc.status, t.dec.status)) =
    some (.busy, .idle) := by decide
theorem test_startDecode_clears_error :
    (nextOf (exec .startDecode { State.reset with dec := (busyOn [] 0).raise .lengthError 3 })).map
      (fun t => (t.dec.status, t.dec.errKind, t.dec.errPos)) = some (.busy, .none, 0) := by decide
theorem test_start_busy_refused : refusalOf (exec .startEncode (encodes [] 0 1)) = some (.startWhileBusy .encoder) := by decide
theorem test_writeSrc_out_of_range :
    faultOf (hostAccess (.writeSrc .encoder 4 0) { State.reset with params := { State.reset.params with maxLen := some 4 } }) =
      some (.noSuchElement .encoder 4) := by decide
theorem test_writeLen_largest :
    (nextOf (hostAccess (.writeLen .encoder 4) { State.reset with params := { State.reset.params with maxLen := some 4 } })).map
      (fun t => t.enc.len) = some 4 := by decide
/-- R128: the host reads DONE, then the result (`BB8` gives 65, 66). -/
theorem test_readDst_result : (nextOf (hostAccess (.readDst .decoder 1) (decoded .host))).map (·.out) =
    some (.element 66) := by decide
theorem test_readStatus_hands_over : (nextOf (hostAccess (.readStatus .decoder) (decoded .call))).map
    (fun t => (t.out, t.dec.owner)) = some (.status 2, .host) := by decide
/-- R164: a read of DST before STATUS has been read gives an unspecified value, and the result is unspecified after it. -/
theorem test_readDst_before_status : (nextOf (hostAccess (.readDst .decoder 1) (decoded .call))).map
    (fun t => (t.draws, t.dec.owner)) = some (1, .broken) := by decide
/-- R164: a write of LEN before STATUS has been read is made, and the result is unspecified after it, STATUS read or not. -/
theorem test_writeLen_before_status : (nextOf (hostAccess (.writeLen .decoder 6) (decoded .call))).map
    (fun t => (t.dec.len, (nextOf (hostAccess (.readStatus .decoder) t)).map (·.dec.owner))) = some (6, some .broken) := by decide
/-- R125: the encoder's error registers read 0 of a spoilt call too; R26: the decoder's in DONE. -/
theorem test_spoilt_errKind_reads_zero :
    (nextOf (hostAccess (.readErrKind .encoder) { State.reset with enc := { busyOn [1] 1 with status := .done, owner := .broken } })).map
      (fun t => (t.out, t.draws)) = some (.errKind 0, 0) ∧
    (nextOf (hostAccess (.readErrPos .decoder) (decoded .broken))).map (·.out) = some (.errPos 0) := by decide
/-- R130, R164: a START clears it. -/
theorem test_start_clears_spoilt : (nextOf (exec .startDecode (decoded .broken))).map (·.dec.owner) = some .call := by decide
theorem test_reset_abandons_call : (nextOf (hostAccess .reset (encodes [65, 66] 0 0))).map (fun t => t.enc.status) =
    some .idle := by decide
theorem test_reset_idles : nextOf (step State.reset) = some State.reset := by decide

-- Witnesses: for each statement with hypotheses, a concrete state and operands that meet them, clause by clause

theorem witness_EncodeInvertsDecode : decode .sel3 7 = .ok .decTriplet := rfl

theorem witness_DecodeAssignsExactlyFittingWords : (7 < 2 ^ Port.sel3.width) ∧ 2 ^ Port.sel3.width ≤ 8 := by decide

/-- An engine's word and a host's word. -/
theorem witness_StepRunsDecodedWord :
    (∃ u, (encodes [65, 66] 0 1).fetch = .word .sel3 2 u ∧ decode .sel3 2 = .ok (.encPair 0)) ∧
    ∃ u, (hostMoves (.eval .lutC2i 255)).fetch = .word (.func .lutC2i) 255 u ∧
      decode (.func .lutC2i) 255 = .ok (.lutC2i 255) := ⟨⟨_, rfl, rfl⟩, _, rfl, rfl⟩

/-- None, one, two and three bytes left, and an IDLE encoder. -/
theorem witness_EncoderTurnRunsSelectedOperation :
    ((encodes [1] 1 1).turns = [.engine .encoder] ∧ (encodes [1] 1 1).enc.status = .busy ∧
      (encodes [1] 1 1).enc.len - (encodes [1] 1 1).enc.pos = 0) ∧
    ((encodes [1] 0 1).enc.status = .busy ∧ (encodes [1] 0 1).enc.len - (encodes [1] 0 1).enc.pos = 1) ∧
    ((encodes [1, 2] 0 1).enc.status = .busy ∧ (encodes [1, 2] 0 1).enc.len - (encodes [1, 2] 0 1).enc.pos = 2) ∧
    3 ≤ (encodes [1, 2, 3] 0 1).enc.len - (encodes [1, 2, 3] 0 1).enc.pos ∧
    ({ State.reset with turns := [.engine .encoder] } : State).enc.status ≠ .busy := by decide

/-- None, one, two and three characters left, and an IDLE decoder. -/
theorem witness_DecoderTurnRunsSelectedOperation :
    ((decodes [1] 1 1).turns = [.engine .decoder] ∧ (decodes [1] 1 1).dec.status = .busy ∧
      (decodes [1] 1 1).dec.len - (decodes [1] 1 1).dec.pos = 0) ∧
    ((decodes [1] 0 1).dec.status = .busy ∧ (decodes [1] 0 1).dec.len - (decodes [1] 0 1).dec.pos = 1) ∧
    ((decodes [1, 2] 0 1).dec.status = .busy ∧ (decodes [1, 2] 0 1).dec.len - (decodes [1, 2] 0 1).dec.pos = 2) ∧
    ((decodes [1, 2, 3] 0 1).dec.status = .busy ∧ 3 ≤ (decodes [1, 2, 3] 0 1).dec.len - (decodes [1, 2, 3] 0 1).dec.pos) ∧
    ({ State.reset with turns := [.engine .decoder] } : State).dec.status ≠ .busy := by decide

theorem witness_HostTurnMakesPendingMove :
    (hostMoves (.start 0)).turns = [.host] ∧ (hostMoves (.start 0)).pending = [.start 0] ∧
    (hostMoves (.start 1)).pending = [.start 1] ∧
    ((hostMoves (.eval .pack8 255)).pending = [.eval .pack8 255] ∧ decode (.func .pack8) 255 = .ok (.pack8 255)) ∧
    (hostMoves (.access .reset)).pending = [.access .reset] ∧ ({ State.reset with turns := [.host] } : State).pending = [] :=
  ⟨rfl, rfl, rfl, ⟨rfl, rfl⟩, rfl, rfl⟩

/-- An IDLE engine, and a BUSY one with one element too many or too few. -/
theorem witness_StepOperationsRefuseOutsidePrecondition :
    State.reset.enc.status ≠ .busy ∧ State.reset.dec.status ≠ .busy ∧
    (encodes [1] 0 1).enc.len - (encodes [1] 0 1).enc.pos ≠ 0 ∧
    (encodes [1, 2] 0 1).enc.len - (encodes [1, 2] 0 1).enc.pos ≠ 1 ∧
    (encodes [1] 0 1).enc.len - (encodes [1] 0 1).enc.pos < 2 ∧
    (decodes [1] 0 1).dec.len - (decodes [1] 0 1).dec.pos ≠ 0 ∧
    (decodes [1, 2] 0 1).dec.len - (decodes [1, 2] 0 1).dec.pos ≠ 1 ∧
    (decodes [1, 2, 3] 0 1).dec.len - (decodes [1, 2, 3] 0 1).dec.pos ≠ 2 ∧
    (decodes [1, 2] 0 1).dec.len - (decodes [1, 2] 0 1).dec.pos < 3 := by decide

theorem witness_PackSixteenDigitsInRange : (pack16 64800).2.2.toNat = 32 ∧ (pack16 65535).2.2.toNat = 32 := by decide

theorem witness_UnpackSixteenGivesTripletValue : (44 : Digit).toNat ≤ 44 := by decide

theorem witness_UnpackEightGivesTailValue : (44 : Digit).toNat ≤ 44 := by decide

theorem witness_UnpackOutsideDomainCompletes : 45 ≤ (45 : Digit).toNat ∧ 45 ≤ (63 : Digit).toNat := by decide

/-- The largest pair value and the largest byte, and two equal triplets. -/
theorem witness_PackingInverseLaws :
    ((15 : Digit).toNat ≤ 44 ∧ (16 : Digit).toNat ≤ 44 ∧ (32 : Digit).toNat ≤ 44 ∧ (unpack16 15 16 32).toNat ≤ 65535) ∧
    ((30 : Digit).toNat ≤ 44 ∧ (5 : Digit).toNat ≤ 44 ∧ (unpack8 30 5).toNat ≤ 255) ∧
    unpack16 44 44 44 = unpack16 44 44 44 := by decide

theorem witness_AlphabetIsBijective : (44 : Digit).toNat ≤ 44 ∧ decLut 0x3A = some 44 ∧ encLut 44 = some 0x3A := by decide

theorem witness_EncodeTableContents :
    (9 : Digit).toNat ≤ 9 ∧ 10 ≤ (10 : Digit).toNat ∧ (10 : Digit).toNat ≤ 35 ∧ 10 ≤ (35 : Digit).toNat ∧
    (35 : Digit).toNat ≤ 35 := by decide

theorem witness_DecodeTableInvertsEncodeTable :
    ((44 : Digit).toNat ≤ 44 ∧ encLut 44 = some 0x3A) ∧ ∀ i : Digit, i.toNat ≤ 44 → encLut i ≠ some 0x3B := by decide

theorem witness_IndexLookupGivesCharacter : (0 : Digit).toNat ≤ 44 ∧ (44 : Digit).toNat ≤ 44 := by decide

theorem witness_IndexLookupReservedCompletes : 45 ≤ (45 : Digit).toNat ∧ 45 ≤ (63 : Digit).toNat := by decide

theorem witness_CharacterLookupGivesHitAndIndex : decLut 0x20 = some 36 ∧ decLut 0x00 = none ∧ decLut 0xFF = none := by decide

theorem witness_EncodePairWritesTriplet :
    (encodes [255, 255] 0 1).enc.status = .busy ∧ 2 ≤ (encodes [255, 255] 0 1).enc.len - (encodes [255, 255] 0 1).enc.pos := by
  decide

theorem witness_EncodeTailWritesTwoCharacters :
    (encodes [1, 2, 3] 2 1).enc.status = .busy ∧ (encodes [1, 2, 3] 2 1).enc.len - (encodes [1, 2, 3] 2 1).enc.pos = 1 := by decide

theorem witness_EncodeDoneSetsStatusAndLength :
    (encodes [] 0 1).enc.status = .busy ∧ (encodes [] 0 1).enc.len - (encodes [] 0 1).enc.pos = 0 := by decide

/-- The largest pair value `FGW`, the first overflow `GGW` under WRAP, and a miss at each of the three positions. -/
theorem witness_DecodeTripletWritesPairOrFaults :
    ((decodes [0x46, 0x47, 0x57] 0 1).dec.status = .busy ∧
      3 ≤ (decodes [0x46, 0x47, 0x57] 0 1).dec.len - (decodes [0x46, 0x47, 0x57] 0 1).dec.pos ∧
      decLut ((decodes [0x46, 0x47, 0x57] 0 1).readSrc .decoder 0) = some 15 ∧
      decLut ((decodes [0x46, 0x47, 0x57] 0 1).readSrc .decoder 1) = some 16 ∧
      decLut ((decodes [0x46, 0x47, 0x57] 0 1).readSrc .decoder 2) = some 32) ∧
    (decLut ((decodes [0x47, 0x47, 0x57] 0 1).readSrc .decoder 0) = some 16 ∧ State.reset.params.overflow = .wrap) ∧
    (decodes [0x62, 0x42, 0x38] 0 1).validAt 0 = false ∧
    ((decodes [0x42, 0x62, 0x38] 0 1).validAt 1 = false ∧ ∀ j, j < 1 → (decodes [0x42, 0x62, 0x38] 0 1).validAt j = true) ∧
    (decodes [0x42, 0x42, 0x62] 0 1).validAt 2 = false ∧ ∀ j, j < 2 → (decodes [0x42, 0x42, 0x62] 0 1).validAt j = true := by
  decide

/-- The largest byte `U5`, the first overflow `V5` under WRAP, and a miss at each of the two positions. -/
theorem witness_DecodeTailWritesByteOrFaults :
    ((decodes [0x55, 0x35] 0 1).dec.status = .busy ∧
      (decodes [0x55, 0x35] 0 1).dec.len - (decodes [0x55, 0x35] 0 1).dec.pos = 2 ∧
      decLut ((decodes [0x55, 0x35] 0 1).readSrc .decoder 0) = some 30 ∧
      decLut ((decodes [0x55, 0x35] 0 1).readSrc .decoder 1) = some 5) ∧
    (decLut ((decodes [0x56, 0x35] 0 1).readSrc .decoder 0) = some 31 ∧ State.reset.params.overflow = .wrap) ∧
    (decodes [0x62, 0x30] 0 1).validAt 0 = false ∧ (decodes [0x30, 0x62] 0 1).validAt 1 = false ∧
    ∀ j, j < 1 → (decodes [0x30, 0x62] 0 1).validAt j = true := by decide

theorem witness_DecodeDangleFollowsPolicy :
    ((decodes [0x62] 0 1).dec.status = .busy ∧ (decodes [0x62] 0 1).dec.len - (decodes [0x62] 0 1).dec.pos = 1 ∧
      (decodes [0x62] 0 1).params.dangle = .ignore) ∧
    ((rejecting (decodes [0x62] 0 1)).dec.status = .busy ∧
      (rejecting (decodes [0x62] 0 1)).dec.len - (rejecting (decodes [0x62] 0 1)).dec.pos = 1 ∧
      (rejecting (decodes [0x62] 0 1)).params.dangle = .reject) := by decide

theorem witness_DecodeDoneSetsStatusAndLength :
    (decodes [0x62] 1 1).dec.status = .busy ∧ (decodes [0x62] 1 1).dec.len - (decodes [0x62] 1 1).dec.pos = 0 := by decide

theorem witness_StartEncodeBeginsCall : State.reset.enc.status ≠ .busy := by decide

/-- START out of ERROR. -/
theorem witness_StartDecodeBeginsCall : ((busyOn [] 0).raise .invalidCharacter 0).status ≠ .busy := by decide

theorem witness_StartWhileBusyRefused : (encodes [] 0 1).enc.status = .busy ∧ (decodes [] 0 1).dec.status = .busy := by decide

theorem witness_HostReadsChangeNothing :
    ∃ t, HostAccess.isRead (.readOutLen .encoder) = true ∧ hostAccess (.readOutLen .encoder) State.reset = .next t :=
  ⟨_, rfl, rfl⟩

/-- A call just ended in ERROR or DONE and one not begun; in each the result is not spoilt. -/
theorem witness_HostRegisterReadValues :
    (((busyOn [] 0).raise .lengthError 0).status = .error ∧ ((busyOn [] 0).raise .lengthError 0).owner ≠ .broken) ∧
    ((busyOn [] 0).finish.status = .done ∧ (busyOn [] 0).finish.owner ≠ .broken) ∧
    (((decoded .broken).engine .decoder).owner = .broken ∧ ((decoded .broken).engine .decoder).status ≠ .error) ∧
    (State.reset.engine .encoder).status ≠ .busy := by decide

/-- The last element and the largest LEN of a bounded machine, before any call and after a broken one, and the last
element of a result. -/
theorem witness_HostBufferAccessesOutsideCall :
    ((State.reset.engine .encoder).status ≠ .busy ∧ (State.reset.engine .encoder).owner ≠ .call) ∧
    (((decoded .broken).engine .decoder).status ≠ .busy ∧ ((decoded .broken).engine .decoder).owner ≠ .call) ∧
    Params.admits { maxLen := some 4, dangle := .ignore, overflow := .wrap } (3 + 1) = true ∧
    Params.admits { maxLen := some 4, dangle := .ignore, overflow := .wrap } 4 = true ∧
    ((decoded .host).engine .decoder).owner = .host ∧ ((decoded .host).engine .decoder).status = .done ∧
    ((decoded .host).engine .decoder).outLen .decoder = some 2 ∧ 1 < 2 := by decide

theorem witness_BuffersRefusedWhileBusy :
    ((encodes [] 0 1).engine .encoder).status = .busy ∧ ((decodes [] 0 1).engine .decoder).status = .busy := by decide

/-- A call ended and not read, and a spoilt one; the spoilt one takes a step. -/
theorem witness_AccessBeforeStatusReadSpoilsResult :
    (((decoded .call).engine .decoder).status ≠ .busy ∧ ((decoded .call).engine .decoder).owner = .call ∧
      (decoded .call).params.admits (0 + 1) = true) ∧
    (((decoded .broken).engine .decoder).status = .done ∧ ((decoded .broken).engine .decoder).owner = .broken) ∧
    (((decoded .broken).dec.raise .lengthError 2).status = .error ∧
      ((decoded .broken).dec.raise .lengthError 2).owner = .broken ∧ (decoded .broken).params.admits 1 = true) ∧
    ∃ t, step (decoded .broken) = .next t := ⟨by decide, by decide, by decide, _, rfl⟩

/-- The first element beyond SRC, the first length beyond MAX_LEN, the first element beyond OUT_LEN, DST and OUT_LEN in
IDLE, OUT_LEN in BUSY. -/
theorem witness_HostAccessesOutsideSpecifiedRange :
    (State.reset.engine .encoder).status ≠ .busy ∧
    Params.admits { maxLen := some 4, dangle := .ignore, overflow := .wrap } (4 + 1) = false ∧
    Params.admits { maxLen := some 4, dangle := .ignore, overflow := .wrap } 5 = false ∧
    (((decoded .host).engine .decoder).owner = .host ∧ ((decoded .host).engine .decoder).status ≠ .busy ∧
      outputLength .decoder ((decoded .host).engine .decoder).len ≤ 2) ∧
    ((State.reset.engine .decoder).owner = .host ∧ (State.reset.engine .decoder).status = .idle) ∧
    ((encodes [] 0 1).engine .encoder).status = .busy := by decide

theorem invariant_holds_while_busy : (encodes [65, 66] 0 1).Inv :=
  { maxLen := by decide
    encSound := ⟨by decide, by decide, by decide, by decide, by decide, by decide, by decide, by decide, by decide, by decide⟩
    decSound := ⟨by decide, by decide, by decide, by decide, by decide, by decide, by decide, by decide, by decide, by decide⟩
    encNoError := by decide
    encAligned := by decide
    decAligned := by decide
    lengthErrorOnlyReject := by decide }

/-- The premise of the clause of `HostRegisterReadValues` about the encoder, in a state with a call in progress. -/
theorem witness_HostRegisterReadValues_encoder : ∃ s : State, s.Inv := ⟨_, invariant_holds_while_busy⟩

theorem witness_StepKeepsInvariant : ∃ s t : State, s.Inv ∧ step s = .next t :=
  ⟨_, _, invariant_holds_while_busy, rfl⟩

theorem witness_EncoderNeverFaults :
    ∃ t, (encodes [65, 66] 0 1).enc.status ≠ .error ∧ (encodes [65, 66] 0 1).enc.errKind = .none ∧
      (encodes [65, 66] 0 1).enc.errPos = 0 ∧ step (encodes [65, 66] 0 1) = .next t :=
  ⟨_, by decide, rfl, rfl, rfl⟩

/-- A miss, and a dangling character under REJECT. -/
theorem witness_OnlyListedFaultsEnterError :
    (∃ t, (decodes [0x62, 0x30] 0 1).dec.status ≠ .error ∧ step (decodes [0x62, 0x30] 0 1) = .next t ∧ t.dec.status = .error) ∧
    ∃ t, (rejecting (decodes [0x62] 0 1)).dec.status ≠ .error ∧ step (rejecting (decodes [0x62] 0 1)) = .next t ∧
      t.dec.status = .error :=
  ⟨⟨_, by decide, rfl, by decide⟩, _, by decide, rfl, by decide⟩

theorem witness_ResultStableUntilStartOrReset :
    ∃ t, (State.reset.engine .decoder).status ≠ .busy ∧ step State.reset = .next t := ⟨_, by decide, rfl⟩

theorem witness_InputImmutableDuringCall :
    ∃ t, ((encodes [65, 66] 0 1).engine .encoder).status = .busy ∧ step (encodes [65, 66] 0 1) = .next t :=
  ⟨_, by decide, rfl⟩

theorem witness_ParametersNeverChange : ∃ t, step State.reset = .next t := ⟨_, rfl⟩

theorem witness_EnginesAreIndependent :
    (∃ t, (encodes [65, 66] 0 1).turns = [.engine .encoder] ∧ step (encodes [65, 66] 0 1) = .next t) ∧
    ∃ t, (decodes [0x42, 0x42, 0x38] 0 1).turns = [.engine .decoder] ∧ step (decodes [0x42, 0x42, 0x38] 0 1) = .next t :=
  ⟨⟨_, rfl, rfl⟩, _, rfl, rfl⟩

theorem witness_BusyEngineProgresses :
    (encodes [65, 66] 0 1).turns = [.engine .encoder] ∧ ((encodes [65, 66] 0 1).engine .encoder).status = .busy ∧
    (decodes [0x62] 0 1).turns = [.engine .decoder] ∧ ((decodes [0x62] 0 1).engine .decoder).status = .busy := by decide

theorem witness_EveryCallEnds :
    ((encodes [1, 2, 3] 0 4).engine .encoder).status = .busy ∧ ((encodes [1, 2, 3] 0 4).engine .encoder).pos = 0 ∧
    (encodes [1, 2, 3] 0 4).turns = List.replicate (((encodes [1, 2, 3] 0 4).engine .encoder).len + 1) (.engine .encoder) ++ [] := by
  decide

/-- The last elements of the output: position 2 of 3 is written, position 3 is not. -/
theorem witness_WritesStayInsideOutput :
    ∃ t, (encodes [65, 66] 0 1).Inv ∧ (encodes [65, 66] 0 1).turns = [.engine .encoder] ∧
      ((encodes [65, 66] 0 1).engine .encoder).status = .busy ∧ step (encodes [65, 66] 0 1) = .next t ∧
      outputLength .encoder 2 ≤ 3 :=
  ⟨_, invariant_holds_while_busy, rfl, by decide, rfl, by decide⟩

/-- A pair and a tail (LEN = 3), and the empty call. -/
theorem witness_EncodeCallComputesString :
    ((encodes [1, 2, 3] 0 3).enc.status = .busy ∧ (encodes [1, 2, 3] 0 3).enc.pos = 0 ∧
      (encodes [1, 2, 3] 0 3).enc.len % 2 = 1 ∧ 0 < (encodes [1, 2, 3] 0 3).enc.len / 2 ∧
      (encodes [1, 2, 3] 0 3).turns = List.replicate ((encodes [1, 2, 3] 0 3).enc.len / 2 +
        (encodes [1, 2, 3] 0 3).enc.len % 2 + 1) (.engine .encoder) ++ []) ∧
    (encodes [] 0 1).turns = List.replicate ((encodes [] 0 1).enc.len / 2 + (encodes [] 0 1).enc.len % 2 + 1)
      (.engine .encoder) ++ [] := by decide

/-- `BB8x`: a triplet and an ignored dangling character that is not in the alphabet; `BB8M1`: a triplet and a tail. -/
theorem witness_DecodeCallComputesBytes :
    ((decodes [0x42, 0x42, 0x38, 0x78] 0 3).dec.status = .busy ∧ (decodes [0x42, 0x42, 0x38, 0x78] 0 3).dec.pos = 0 ∧
      (∀ i, i < consumedLength (decodes [0x42, 0x42, 0x38, 0x78] 0 3).dec.len →
        (decodes [0x42, 0x42, 0x38, 0x78] 0 3).validAt i = true) ∧
      (decodes [0x42, 0x42, 0x38, 0x78] 0 3).params.dangle = .ignore ∧
      (decodes [0x42, 0x42, 0x38, 0x78] 0 3).turns =
        List.replicate ((decodes [0x42, 0x42, 0x38, 0x78] 0 3).dec.len / 3 + 1 + 1) (.engine .decoder) ++ []) ∧
    ((decodes [0x42, 0x42, 0x38, 0x4D, 0x31] 0 3).dec.len % 3 = 2 ∧
      (∀ i, i < consumedLength (decodes [0x42, 0x42, 0x38, 0x4D, 0x31] 0 3).dec.len →
        (decodes [0x42, 0x42, 0x38, 0x4D, 0x31] 0 3).validAt i = true) ∧
      (decodes [0x42, 0x42, 0x38, 0x4D, 0x31] 0 3).turns =
        List.replicate ((decodes [0x42, 0x42, 0x38, 0x4D, 0x31] 0 3).dec.len / 3 + 1 + 1) (.engine .decoder) ++ []) := by
  decide

/-- `BB8B?`: the last consumed character, position 4, is the first invalid one. -/
theorem witness_DecodeCallReportsFirstInvalid :
    (decodes [0x42, 0x42, 0x38, 0x42, 0x3F] 0 2).dec.status = .busy ∧ (decodes [0x42, 0x42, 0x38, 0x42, 0x3F] 0 2).dec.pos = 0 ∧
    4 < consumedLength (decodes [0x42, 0x42, 0x38, 0x42, 0x3F] 0 2).dec.len ∧
    (decodes [0x42, 0x42, 0x38, 0x42, 0x3F] 0 2).validAt 4 = false ∧
    (∀ j, j < 4 → (decodes [0x42, 0x42, 0x38, 0x42, 0x3F] 0 2).validAt j = true) ∧
    (decodes [0x42, 0x42, 0x38, 0x42, 0x3F] 0 2).turns = List.replicate (4 / 3 + 1) (.engine .decoder) ++ [] := by decide

/-- `BB8x` under REJECT. -/
theorem witness_DecodeCallRejectsDangling :
    (rejecting (decodes [0x42, 0x42, 0x38, 0x78] 0 2)).dec.status = .busy ∧
    (rejecting (decodes [0x42, 0x42, 0x38, 0x78] 0 2)).dec.pos = 0 ∧
    (rejecting (decodes [0x42, 0x42, 0x38, 0x78] 0 2)).dec.len % 3 = 1 ∧
    (rejecting (decodes [0x42, 0x42, 0x38, 0x78] 0 2)).params.dangle = .reject ∧
    (∀ j, j < (rejecting (decodes [0x42, 0x42, 0x38, 0x78] 0 2)).dec.len - 1 →
      (rejecting (decodes [0x42, 0x42, 0x38, 0x78] 0 2)).validAt j = true) ∧
    (rejecting (decodes [0x42, 0x42, 0x38, 0x78] 0 2)).turns =
      List.replicate ((rejecting (decodes [0x42, 0x42, 0x38, 0x78] 0 2)).dec.len / 3 + 1) (.engine .decoder) ++ [] := by decide

/-- The byte 65: the ENCODE writes `K1`, and a DECODE of `K1` is begun. -/
theorem witness_DecodeOfEncodeGivesBytesBack :
    ∃ t, (encodes [65] 0 2).enc.status = .busy ∧ (encodes [65] 0 2).enc.pos = 0 ∧
      (encodes [65] 0 2).turns = List.replicate ((encodes [65] 0 2).enc.len / 2 + (encodes [65] 0 2).enc.len % 2 + 1)
        (.engine .encoder) ++ [] ∧
      runSteps ((encodes [65] 0 2).enc.len / 2 + (encodes [65] 0 2).enc.len % 2 + 1) (encodes [65] 0 2) = .next t ∧
      (decodes [0x4B, 0x31] 0 2).dec.status = .busy ∧ (decodes [0x4B, 0x31] 0 2).dec.pos = 0 ∧
      some (decodes [0x4B, 0x31] 0 2).dec.len = t.enc.outLen .encoder ∧
      (∀ i, i < (decodes [0x4B, 0x31] 0 2).dec.len → (decodes [0x4B, 0x31] 0 2).readSrc .decoder i = t.readDst .encoder i) ∧
      (decodes [0x4B, 0x31] 0 2).turns = List.replicate ((decodes [0x4B, 0x31] 0 2).dec.len / 3 +
        (if (decodes [0x4B, 0x31] 0 2).dec.len % 3 = 0 then 0 else 1) + 1) (.engine .decoder) ++ [] :=
  ⟨_, by decide, by decide, by decide, rfl, by decide, by decide, by decide, by decide, by decide⟩

/-- The encoder about to encode the byte 65 in another surrounding: a result left in DST, the decoder BUSY. -/
def encodesElsewhere : State :=
  { encodes [65] 0 2 with dec := busyOn [1] 0, enc := { busyOn [65] 0 with dst := [(0, 9)] }, draws := 5 }

theorem witness_EncodeResultDependsOnlyOnInput :
    ∃ t t', (encodes [65] 0 2).enc.status = .busy ∧ (encodes [65] 0 2).enc.pos = 0 ∧ encodesElsewhere.enc.status = .busy ∧
      encodesElsewhere.enc.pos = 0 ∧ encodesElsewhere.enc.len = (encodes [65] 0 2).enc.len ∧
      (∀ i, i < (encodes [65] 0 2).enc.len → encodesElsewhere.readSrc .encoder i = (encodes [65] 0 2).readSrc .encoder i) ∧
      (encodes [65] 0 2).turns = List.replicate ((encodes [65] 0 2).enc.len / 2 + (encodes [65] 0 2).enc.len % 2 + 1)
        (.engine .encoder) ++ [] ∧
      encodesElsewhere.turns = List.replicate ((encodes [65] 0 2).enc.len / 2 + (encodes [65] 0 2).enc.len % 2 + 1)
        (.engine .encoder) ++ [] ∧
      runSteps 2 (encodes [65] 0 2) = .next t ∧ runSteps 2 encodesElsewhere = .next t' :=
  ⟨_, _, by decide, by decide, by decide, by decide, by decide, by decide, by decide, by decide, rfl, rfl⟩

end Sys2Proof.Tests
end

section
/-! SUPPORT. The fetch and the step of a presented word. -/

namespace Sys2Proof.Machine

/-- Fetching takes at most one of the host's moves. -/
theorem State.fetch_pending (s : State) :
    s.fetch.state.pending = s.pending ∨ ∃ m, s.pending = m :: s.fetch.state.pending := by
  unfold State.fetch
  split
  · unfold State.engineMove
    split <;> exact .inl rfl
  · unfold State.hostMove
    split
    · exact .inl rfl
    all_goals exact .inr ⟨_, ‹_›⟩

/-- A presented word that decodes is executed (R18, R68). -/
theorem step_word {s u : State} {p : Port} {w : Nat} {i : Instr} (hf : s.fetch = .word p w u)
    (hd : decode p w = .ok i) : step s = exec i u := by
  unfold step
  rw [hf]
  simp only [hd]

/-- Settles O5: the step by `step_word`, the frame by the laws of the fetch. -/
theorem stepRunsDecodedWord : Obligations.StepRunsDecodedWord := by
  intro s u p w i hf hd
  have hpending := s.fetch_pending
  rw [hf] at hpending
  exact ⟨step_word hf hd, State.fetch_word_frame hf, hpending⟩

end Sys2Proof.Machine
end

section
/-! SUPPORT. What one step can do to one engine, said once, and the invariant that it keeps. -/

namespace Sys2Proof.Machine

/-- The elements a full group of an engine takes from its input (R102, R111). -/
def EngineId.groupSize : EngineId → Nat
  | .encoder => 2
  | .decoder => 3

/-- Several writes to `DST`, the first one first. -/
def Engine.writeDsts : List Host.Cell → Engine → Engine
  | [], g => g
  | (a, v) :: ws, g => (g.writeDst a v).writeDsts ws

/-- `EngineStep p e g g'`: a step of the block, of whatever agent, may take engine `e` from `g` to `g'`. -/
inductive EngineStep (p : Params) : EngineId → Engine → Engine → Prop where
  /-- The step does nothing to this engine. -/
  | kept {e g} : EngineStep p e g g
  /-- The host asserts `rst` (R160). -/
  | reset {e g} : EngineStep p e g Engine.reset
  /-- START (R126, R127, R165). -/
  | start {e g} : g.status ≠ .busy → EngineStep p e g g.start
  /-- The host writes `SRC[i]` (R125). -/
  | writeSrc {e g} (i : Nat) (v : Byte) : g.status ≠ .busy → p.admits (i + 1) = true →
      EngineStep p e g (g.writeSrc i v).touch
  /-- The host writes `LEN` (R24, R125). -/
  | writeLen {e g} (n : Nat) : g.status ≠ .busy → p.admits n = true → EngineStep p e g (g.writeLen n).touch
  /-- The host reads `STATUS` (R164). -/
  | statusRead {e g} : EngineStep p e g g.statusRead
  /-- The host reads `DST` (R164). -/
  | readDst {e g} : g.status ≠ .busy → EngineStep p e g g.touch
  /-- The engine consumes a full group, or all that is left (R102, R103, R111, R112, R113). -/
  | group {e g} (k : Nat) (ws : List Host.Cell) : g.status = .busy → 0 < k → k ≤ g.remaining →
      k = e.groupSize ∨ k = g.remaining → EngineStep p e g ((g.writeDsts ws).advance k)
  /-- The engine has no input left (R104, R114). -/
  | finish {e g} : g.status = .busy → g.remaining = 0 → EngineStep p e g g.finish
  /-- The decoder misses in the group at the cursor (R111, R112, R141). -/
  | miss {g} (q : Nat) : g.status = .busy → g.pos ≤ q → q < g.pos + g.remaining →
      EngineStep p .decoder g (g.raise .invalidCharacter q)
  /-- The decoder rejects a dangling character (R113, R142). -/
  | dangle {g} : g.status = .busy → g.remaining = 1 → p.dangle = .reject →
      EngineStep p .decoder g (g.raise .lengthError g.pos)

/-- `StepFrame s t`: the parameters are as they were, and either engine has made one step of its own. -/
structure StepFrame (s t : State) : Prop where
  params : t.params = s.params
  engine : ∀ e, EngineStep s.params e (s.engine e) (t.engine e)

section StepFrames
variable {s t : State}

@[simp] theorem State.setEngine_params (e : EngineId) (g : Engine) : (s.setEngine e g).params = s.params := by
  cases e <;> rfl

/-- What one engine does leaves the other as it is (R20). -/
theorem StepFrame.of_setEngine {e : EngineId} {g : Engine} (h : EngineStep s.params e (s.engine e) g) :
    StepFrame s (s.setEngine e g) where
  params := s.setEngine_params e g
  engine e' := by
    cases e <;> cases e'
    case encoder.encoder | decoder.decoder => exact h
    all_goals exact .kept

/-- The output and the count of free values are no part of an engine. -/
theorem StepFrame.present (h : StepFrame s t) (o : Output) (k : Nat) : StepFrame s ((t.setOut o).drawn k) where
  params := h.params
  engine e := by cases e <;> exact h.engine _

/-- The count of free values is no part of an engine. -/
theorem StepFrame.drawn (h : StepFrame s t) (k : Nat) : StepFrame s (t.drawn k) := h.present t.out k

theorem StepFrame.refl (s : State) : StepFrame s s where
  params := rfl
  engine _ := .kept

/-- A reset takes both engines to the reset state (R160). -/
theorem StepFrame.applyReset (s : State) : StepFrame s s.applyReset where
  params := rfl
  engine e := by cases e <;> exact .reset

/-- A function's operation presents a value and does nothing else (R84, R86, R99). -/
theorem exec_func_next {i : Instr} {f : Func} (hi : (encode i).port = .func f) (h : exec i s = .next t) :
    (∃ o, t = s.setOut o) ∨ ∃ f, t = s.presentFree f := by
  cases i with
  | merge16 | split16 | pack16 | pack8 => cases h; exact .inl ⟨_, rfl⟩
  | unpack16 c d e =>
    simp only [exec, execUnpack16] at h
    split at h <;> cases h
    · exact .inl ⟨_, rfl⟩
    · exact .inr ⟨_, rfl⟩
  | unpack8 c d =>
    simp only [exec, execUnpack8] at h
    split at h <;> cases h
    · exact .inl ⟨_, rfl⟩
    · exact .inr ⟨_, rfl⟩
  | lutI2c idx =>
    simp only [exec, execLutI2c] at h
    split at h <;> cases h
    · exact .inl ⟨_, rfl⟩
    · exact .inr ⟨_, rfl⟩
  | lutC2i ch =>
    simp only [exec, execLutC2i] at h
    split at h <;> cases h
    · exact .inl ⟨_, rfl⟩
    · exact .inr ⟨_, rfl⟩
  | _ => cases hi

/-- START that goes on, on either engine. -/
theorem startCall_frame {e : EngineId} (h : s.startCall e = .next t) : StepFrame s t := by
  rcases s.startCall_cases e with ⟨-, hr⟩ | ⟨hb, hn⟩
  · rw [hr] at h; cases h
  · rw [hn] at h; cases h
    exact .of_setEngine (.start hb)

/-- Consuming a group and drawing free values for its bytes. -/
theorem StepFrame.of_group (e : EngineId) (k n : Nat) (ws : List Host.Cell) (hb : (s.engine e).status = .busy)
    (h0 : 0 < k) (hk : k ≤ (s.engine e).remaining) (hg : k = e.groupSize ∨ k = (s.engine e).remaining) :
    StepFrame s ((s.setEngine e (((s.engine e).writeDsts ws).advance k)).drawn n) :=
  (StepFrame.of_setEngine (.group k ws hb h0 hk hg)).drawn n

theorem execEncPair_frame (x : BitVec 1) (h : execEncPair x s = .next t) : StepFrame s t := by
  obtain ⟨hb, hl, c, d, e, -, rfl⟩ := execEncPair_next x h
  exact .of_group .encoder 2 0 [(_, _), (_, _), (_, _)] hb (by decide) hl (.inl rfl)

theorem execEncTail_frame (h : execEncTail s = .next t) : StepFrame s t := by
  obtain ⟨hb, hl, c, d, -, rfl⟩ := execEncTail_next h
  exact .of_group .encoder 1 0 [(_, _), (_, _)] hb (by decide) hl.ge (.inr hl.symm)

theorem execEncDone_frame (h : execEncDone s = .next t) : StepFrame s t := by
  obtain ⟨hb, hl, rfl⟩ := execEncDone_next h
  exact .of_setEngine (e := .encoder) (.finish hb hl)

theorem execDecTriplet_frame (h : execDecTriplet s = .next t) : StepFrame s t := by
  obtain ⟨hb, hl, ⟨q, hq, rfl⟩ | ⟨c, d, e, -, rfl⟩⟩ := execDecTriplet_next h
  · obtain ⟨_, _, _, -, -, -, ho⟩ | ⟨k, hk, -, -, he⟩ := s.tripletDigits_cases s.dec.pos
    · rw [ho] at hq; cases hq
    · rw [he] at hq; cases hq
      exact .of_setEngine (e := .decoder) (.miss _ hb (Nat.le_add_right _ _) (Nat.add_lt_add_left (hk.trans_le hl) _))
  · exact .of_group .decoder 3 _ [(_, _), (_, _)] hb (by decide) hl (.inl rfl)

theorem execDecTail_frame (h : execDecTail s = .next t) : StepFrame s t := by
  obtain ⟨hb, hl, ⟨q, hq, rfl⟩ | ⟨c, d, -, rfl⟩⟩ := execDecTail_next h
  · obtain ⟨_, _, -, -, ho⟩ | ⟨k, hk, -, -, he⟩ := s.tailDigits_cases s.dec.pos
    · rw [ho] at hq; cases hq
    · rw [he] at hq; cases hq
      exact .of_setEngine (e := .decoder)
        (.miss _ hb (Nat.le_add_right _ _) (Nat.add_lt_add_left (hk.trans_le hl.ge) _))
  · exact .of_group .decoder 2 _ [(_, _)] hb (by decide) hl.ge (.inr hl.symm)

theorem execDecDangle_frame (h : execDecDangle s = .next t) : StepFrame s t := by
  obtain ⟨hb, hl, ⟨-, rfl⟩ | ⟨hp, rfl⟩⟩ := execDecDangle_next h
  · exact .of_group .decoder 1 0 [] hb (by decide) hl.ge (.inr hl.symm)
  · exact .of_setEngine (e := .decoder) (.dangle hb hl hp)

theorem execDecDone_frame (h : execDecDone s = .next t) : StepFrame s t := by
  obtain ⟨hb, hl, rfl⟩ := execDecDone_next h
  exact .of_setEngine (e := .decoder) (.finish hb hl)

/-- An operation of the table, whichever it is. -/
theorem exec_frame {i : Instr} (h : exec i s = .next t) : StepFrame s t := by
  have func : ∀ f, (encode i).port = .func f → StepFrame s t := fun f hi => by
    obtain ⟨o, rfl⟩ | ⟨f, rfl⟩ := exec_func_next hi h
    · exact (StepFrame.refl s).present o 0
    · exact (StepFrame.refl s).present (f (s.freeValue 0)) 1
  cases i with
  | encDone => exact execEncDone_frame h
  | encTail => exact execEncTail_frame h
  | encPair x => exact execEncPair_frame x h
  | decDone => exact execDecDone_frame h
  | decDangle => exact execDecDangle_frame h
  | decTail => exact execDecTail_frame h
  | decTriplet => exact execDecTriplet_frame h
  | startEncode | startDecode => exact startCall_frame h
  | _ => exact func _ rfl

/-- An access of the host, whichever it is. -/
theorem hostAccess_frame {a : HostAccess} (h : hostAccess a s = .next t) : StepFrame s t := by
  obtain ⟨-, rfl⟩ | ⟨e, i, v, -, hb, hi, rfl⟩ | ⟨e, n, -, hb, hn, rfl⟩ | ⟨e, g, o, k, -, rfl, hg⟩ :=
    hostAccess_next_cases h
  · exact .applyReset s
  · exact .of_setEngine (.writeSrc i v hb hi)
  · exact .of_setEngine (.writeLen n hb hn)
  · refine (StepFrame.of_setEngine ?_).present o k
    obtain rfl | ⟨-, rfl⟩ | ⟨i, -, hb, rfl⟩ := hg
    · exact .kept
    · exact .statusRead
    · exact .readDst hb

/-- Fetching changes no engine and no parameter, so a frame from the state of the fetch is one from `s`. -/
theorem StepFrame.of_fetch (h : StepFrame s.fetch.state t) : StepFrame s t := by
  rw [s.fetch_frame] at h
  exact ⟨h.params, fun e => by cases e <;> exact h.engine _⟩

/-- Every step of the block: no parameter changes, and each engine makes one of the moves of `EngineStep`. -/
theorem step_frame (h : step s = .next t) : StepFrame s t := by
  apply StepFrame.of_fetch
  obtain ⟨p, w, u, i, hf, -, hx⟩ | ⟨a, u, hf, ha⟩ | hf := step_next_cases h <;> rw [hf]
  · exact exec_frame hx
  · exact hostAccess_frame ha
  · exact .refl t

end StepFrames

/-- The invariant's share of engine `e`: R22 to R27 and, with them, the alignment of the cursor, the encoder's never
being in ERROR, and LengthError under REJECT only. -/
structure Engine.SoundAs (e : EngineId) (p : Params) (g : Engine) : Prop where
  sound : g.Sound p
  aligned : g.status = .busy → g.pos % e.groupSize = 0 ∨ g.pos = g.len
  encoderNoError : e = .encoder → g.status ≠ .error
  lengthErrorOnlyReject : g.errKind = .lengthError → p.dangle = .reject

/-- The invariant of the block is that of its engines, beside `MAX_LEN >= 1`. -/
theorem State.inv_iff (s : State) :
    s.Inv ↔ s.params.admits 1 = true ∧ ∀ e, (s.engine e).SoundAs e s.params := by
  constructor
  · intro h
    refine ⟨h.maxLen, fun e => ?_⟩
    cases e with
    | encoder =>
      refine ⟨h.encSound, h.encAligned, fun _ => h.encNoError, fun hk => ?_⟩
      have hnone : s.enc.errKind = .none := h.encSound.errorKind.2 h.encNoError
      rw [State.engine_encoder, hnone] at hk
      cases hk
    | decoder => exact ⟨h.decSound, h.decAligned, nofun, h.lengthErrorOnlyReject⟩
  · intro ⟨hmax, h⟩
    have henc := h .encoder
    have hdec := h .decoder
    exact
      { maxLen := hmax
        encSound := henc.sound
        decSound := hdec.sound
        encNoError := henc.encoderNoError rfl
        encAligned := henc.aligned
        decAligned := hdec.aligned
        lengthErrorOnlyReject := hdec.lengthErrorOnlyReject }

/-- `admits` is closed downwards. -/
theorem Params.admits_of_le {p : Params} {m n : Nat} (h : p.admits n = true) (hle : m ≤ n) : p.admits m = true := by
  cases hm : p.maxLen with
  | none => simp only [Params.admits, hm]
  | some k =>
    simp only [Params.admits, hm, decide_eq_true_eq] at h ⊢
    exact Nat.le_trans hle h

section EngineSteps
variable {p : Params} {e : EngineId} {g : Engine}

theorem Engine.SoundAs.reset (hmax : p.admits 1 = true) : Engine.reset.SoundAs e p where
  sound :=
    { lenAdmitted := Params.admits_of_le hmax (Nat.zero_le 1)
      posAdmitted := Params.admits_of_le hmax (Nat.zero_le 1)
      posInCall := nofun
      errorKind := ⟨nofun, fun _ => rfl⟩
      errorPos := fun _ => rfl
      errorPosAdmitted := hmax
      srcWf := Memory.wf_nil
      dstWf := Memory.wf_nil
      busyOwned := nofun
      idleOwned := fun _ => rfl }
  aligned := nofun
  encoderNoError _ := nofun
  lengthErrorOnlyReject := nofun

theorem Engine.SoundAs.start (h : g.SoundAs e p) (hmax : p.admits 1 = true) : g.start.SoundAs e p where
  sound :=
    { h.sound with
      posAdmitted := Params.admits_of_le hmax (Nat.zero_le 1)
      posInCall := fun _ => Nat.zero_le _
      errorKind := ⟨nofun, fun _ => rfl⟩
      errorPos := fun _ => rfl
      errorPosAdmitted := hmax
      busyOwned := fun _ => rfl
      idleOwned := nofun }
  aligned _ := .inl (Nat.zero_mod _)
  encoderNoError _ := nofun
  lengthErrorOnlyReject := nofun

theorem Engine.SoundAs.writeSrc (h : g.SoundAs e p) (i : Nat) (v : Byte) : (g.writeSrc i v).SoundAs e p :=
  { h with sound := { h.sound with srcWf := Memory.wf_write i v h.sound.srcWf } }

theorem Engine.SoundAs.writeDst (h : g.SoundAs e p) (i : Nat) (v : Byte) : (g.writeDst i v).SoundAs e p :=
  { h with sound := { h.sound with dstWf := Memory.wf_write i v h.sound.dstWf } }

theorem Engine.SoundAs.writeLen (h : g.SoundAs e p) (hb : g.status ≠ .busy) {n : Nat} (hn : p.admits n = true) :
    (g.writeLen n).SoundAs e p :=
  { h with
    sound := { h.sound with lenAdmitted := hn, posInCall := fun hb' => absurd hb' hb }
    aligned := fun hb' => absurd hb' hb }

/-- The host's touch of an idle engine's buffers leaves them the host's (R164). -/
theorem Engine.SoundAs.touch (h : g.SoundAs e p) (hb : g.status ≠ .busy) : g.touch.SoundAs e p :=
  { h with
    sound :=
      { h.sound with
        busyOwned := fun hb' => absurd hb' hb
        idleOwned := fun hi => by simp [h.sound.idleOwned hi, Owner.afterTouch_eq] } }

/-- A read of STATUS hands over the buffers of an ended call only (R164). -/
theorem Engine.SoundAs.statusRead (h : g.SoundAs e p) : g.statusRead.SoundAs e p :=
  { h with
    sound :=
      { h.sound with
        busyOwned := fun hb => by
          have hb : g.status = .busy := hb
          simp [h.sound.busyOwned hb, hb, Owner.afterStatusRead_eq]
        idleOwned := fun hi => by simp [h.sound.idleOwned hi, Owner.afterStatusRead_eq] } }

@[simp] theorem Engine.writeDsts_pos (ws : List Host.Cell) : (g.writeDsts ws).pos = g.pos := by
  induction ws generalizing g with
  | nil => rfl
  | cons w ws ih => exact ih

@[simp] theorem Engine.writeDsts_len (ws : List Host.Cell) : (g.writeDsts ws).len = g.len := by
  induction ws generalizing g with
  | nil => rfl
  | cons w ws ih => exact ih

@[simp] theorem Engine.writeDsts_status (ws : List Host.Cell) : (g.writeDsts ws).status = g.status := by
  induction ws generalizing g with
  | nil => rfl
  | cons w ws ih => exact ih

@[simp] theorem Engine.writeDsts_remaining (ws : List Host.Cell) : (g.writeDsts ws).remaining = g.remaining := by
  simp [Engine.remaining]

theorem Engine.SoundAs.writeDsts (h : g.SoundAs e p) (ws : List Host.Cell) : (g.writeDsts ws).SoundAs e p := by
  induction ws generalizing g with
  | nil => exact h
  | cons w ws ih => exact ih (h.writeDst w.1 w.2)

/-- Consuming a full group leaves the cursor aligned, and consuming all that is left takes it to `LEN` (R107, R118). -/
theorem Engine.SoundAs.advance (h : g.SoundAs e p) (hb : g.status = .busy) {k : Nat} (h0 : 0 < k)
    (hk : k ≤ g.remaining) (hg : k = e.groupSize ∨ k = g.remaining) : (g.advance k).SoundAs e p := by
  unfold Engine.remaining at hk hg
  have hle : g.pos + k ≤ g.len := by omega
  have haligned : g.pos % e.groupSize = 0 := (h.aligned hb).resolve_right (by omega)
  exact
    { h with
      sound :=
        { h.sound with
          posAdmitted := Params.admits_of_le h.sound.lenAdmitted hle
          posInCall := fun _ => hle }
      aligned := fun _ => by
        rcases hg with rfl | hrest
        · exact .inl (by simpa using haligned)
        · exact .inr (show g.pos + k = g.len by omega) }

theorem Engine.SoundAs.finish (h : g.SoundAs e p) (hb : g.status = .busy) : g.finish.SoundAs e p :=
  { h with
    sound :=
      { h.sound with
        posInCall := nofun
        errorKind := ⟨nofun, fun _ => h.sound.errorKind.2 (by simp [hb])⟩
        errorPos := fun _ => h.sound.errorPos (by simp [hb])
        busyOwned := nofun
        idleOwned := nofun }
    aligned := nofun
    encoderNoError := fun _ => nofun }

/-- A fault at a position of the input: `ERR_POS` is in range because the input is (R27, R143). -/
theorem Engine.SoundAs.raise (h : g.SoundAs .decoder p) {k : ErrKind} {q : Nat} (hk : k ≠ .none) (hq : q < g.len)
    (hd : k = .lengthError → p.dangle = .reject) : (g.raise k q).SoundAs .decoder p where
  sound :=
    { h.sound with
      posInCall := nofun
      errorKind := ⟨fun hn => absurd hn hk, fun he => absurd rfl he⟩
      errorPos := fun he => absurd rfl he
      errorPosAdmitted := Params.admits_of_le h.sound.lenAdmitted hq
      busyOwned := nofun
      idleOwned := nofun }
  aligned := nofun
  encoderNoError := nofun
  lengthErrorOnlyReject := hd

/-- Every move of an engine keeps its share of the invariant. -/
theorem EngineStep.soundAs {g' : Engine} (hs : EngineStep p e g g') (hmax : p.admits 1 = true) (h : g.SoundAs e p) :
    g'.SoundAs e p := by
  cases hs with
  | kept => exact h
  | reset => exact .reset hmax
  | start => exact h.start hmax
  | writeSrc i v hb => exact (h.writeSrc i v).touch hb
  | writeLen n hb hn => exact (h.writeLen hb hn).touch hb
  | statusRead => exact h.statusRead
  | readDst hb => exact h.touch hb
  | group k ws hb h0 hk hg =>
    exact (h.writeDsts ws).advance (by simpa using hb) h0 (by simpa using hk) (by simpa using hg)
  | finish hb => exact h.finish hb
  | miss q hb hle hq =>
    have hpos := h.sound.posInCall hb
    unfold Engine.remaining at hq
    exact h.raise nofun (by omega) nofun
  | dangle hb hl hr =>
    unfold Engine.remaining at hl
    exact h.raise nofun (by omega) fun _ => hr

end EngineSteps

/-- Settles O42: the invariant is the engines' own, and each engine's move keeps it. -/
theorem stepKeepsInvariant : Obligations.StepKeepsInvariant := by
  intro s t hs hstep
  obtain ⟨hmax, hsound⟩ := s.inv_iff.1 hs
  obtain ⟨hparams, hengine⟩ := step_frame hstep
  refine t.inv_iff.2 ⟨hparams ▸ hmax, fun e => ?_⟩
  rw [hparams]
  exact (hengine e).soundAs hmax (hsound e)

end Sys2Proof.Machine
end

section
/-! SUPPORT. What the host's accesses answer outside the specified range. -/

namespace Sys2Proof.Machine

section Accesses
variable {s : State} {e : EngineId}

@[simp] theorem State.setEngine_self (e : EngineId) (s : State) : s.setEngine e (s.engine e) = s := by
  cases e <;> rfl

/-- Where the buffers are the host's, touching them changes nothing (R164). -/
theorem Engine.touch_of_host {g : Engine} (h : g.owner = .host) : g.touch = g := by
  cases g
  cases h
  rfl

theorem hostWriteSrc_beyond (hb : (s.engine e).status ≠ .busy) {i : Nat} (hi : s.params.admits (i + 1) = false)
    (v : Byte) : hostAccess (.writeSrc e i v) s = .fault (.noSuchElement e i) := by
  simp [hostAccess, hostWriteSrc, hb, hi]

theorem hostReadSrc_beyond (hb : (s.engine e).status ≠ .busy) {i : Nat} (hi : s.params.admits (i + 1) = false) :
    hostAccess (.readSrc e i) s = .fault (.noSuchElement e i) := by
  simp [hostAccess, hostReadSrc, hb, hi]

theorem hostWriteLen_beyond (hb : (s.engine e).status ≠ .busy) {n : Nat} (hn : s.params.admits n = false) :
    hostAccess (.writeLen e n) s = .refused (.lenAboveMax e n) := by
  simp [hostAccess, hostWriteLen, hb, hn]

/-- `DST[i]` is no part of a result in another STATUS than DONE, nor from OUT_LEN on (R125, R166). -/
theorem Engine.resultAt_eq_false {g : Engine} {i : Nat} (h : g.status ≠ .done ∨ outputLength e g.len ≤ i) :
    g.resultAt e i = false := by
  rcases h with h | h
  · simp [Engine.resultAt, h]
  · simp [Engine.resultAt, Nat.not_lt.2 h]

/-- A read of DST outside a result presents a free value (U8). -/
theorem hostReadDst_free (hb : (s.engine e).status ≠ .busy) (ho : (s.engine e).owner = .host) {i : Nat}
    (hi : (s.engine e).status ≠ .done ∨ outputLength e (s.engine e).len ≤ i) :
    hostAccess (.readDst e i) s = .next (s.presentFree fun v => .element (BitVec.ofNat 8 v)) := by
  simp [hostAccess, hostReadDst, hb, Engine.resultAt_eq_false hi, Engine.touch_of_host ho]

/-- A read of OUT_LEN in IDLE or BUSY presents a free value (R28, U7). -/
theorem hostReadOutLen_free (h : (s.engine e).status = .idle ∨ (s.engine e).status = .busy) :
    hostAccess (.readOutLen e) s = .next (s.presentFree .outLen) := by
  rcases h with h | h <;> simp [hostAccess, hostReadOutLen, Engine.spoilt, Engine.outLen, h]

end Accesses

/-- Settles O60, clause by clause. -/
theorem hostAccessesOutsideSpecifiedRange : Obligations.HostAccessesOutsideSpecifiedRange := by
  intro e s
  exact ⟨fun hb => ⟨fun i hi => ⟨hostWriteSrc_beyond hb hi, hostReadSrc_beyond hb hi⟩,
    fun n hn => hostWriteLen_beyond hb hn, fun ho i hi => ⟨_, hostReadDst_free hb ho hi⟩⟩,
    fun h => ⟨_, hostReadOutLen_free h⟩⟩

end Sys2Proof.Machine
end

section
/-! SUPPORT. Either engine of a state, whichever was replaced, and what the host's accesses answer inside the
specified range and in the window of R164. -/

namespace Sys2Proof.Machine

section Replacement
variable (e : EngineId) (s : State) (g : Engine)

@[simp] theorem State.engine_setEngine_same : (s.setEngine e g).engine e = g := by cases e <;> rfl

theorem State.engine_setEngine_other {e e' : EngineId} (h : e' ≠ e) : (s.setEngine e g).engine e' = s.engine e' := by
  cases e <;> cases e'
  case encoder.encoder | decoder.decoder => exact absurd rfl h
  all_goals rfl

@[simp] theorem State.setEngine_turns : (s.setEngine e g).turns = s.turns := by cases e <;> rfl

@[simp] theorem State.setEngine_epoch : (s.setEngine e g).epoch = s.epoch := by cases e <;> rfl

end Replacement

/-- DST reads alike in two states of one epoch with one content (R15). -/
theorem State.readDst_congr {s t : State} {e : EngineId} (hdst : (t.engine e).dst = (s.engine e).dst)
    (hepoch : t.epoch = s.epoch) (i : Nat) : t.readDst e i = s.readDst e i := by
  simp only [State.readDst, State.unlisted, hdst, hepoch]

/-- Touching the buffers changes nothing but the record of a call whose end has not been read (R164). -/
theorem Owner.afterTouch_of_ne_call {o : Owner} (h : o ≠ .call) : o.afterTouch = o := by
  rw [o.afterTouch_eq, if_neg h]

theorem Engine.touch_of_ne_call {g : Engine} (h : g.owner ≠ .call) : g.touch = g := by
  simp only [Engine.touch, Owner.afterTouch_of_ne_call h]

section BufferAccesses
variable {s : State} {e : EngineId} (hb : (s.engine e).status ≠ .busy)
include hb

/-- A write of `SRC[i]` changes that element alone, and the record as R164 says. -/
theorem hostWriteSrc_writes {o : Owner} (ho : (s.engine e).owner.afterTouch = o) {i : Nat} (v : Byte)
    (hi : s.params.admits (i + 1) = true) : ∃ t, hostAccess (.writeSrc e i v) s = .next t ∧
      t = s.setEngine e { s.engine e with src := (t.engine e).src, owner := o } ∧
      t.readSrc e i = v ∧ ∀ j, j ≠ i → t.readSrc e j = s.readSrc e j := by
  subst ho
  refine ⟨s.setEngine e ((s.engine e).writeSrc i v).touch, ?_, ?_, ?_, fun j hj => ?_⟩
  · simp only [hostAccess, hostWriteSrc, if_neg hb, if_pos hi]
  · rw [State.engine_setEngine_same]; rfl
  · simp [State.readSrc, Memory.read_write_same]
  · simp [State.readSrc, Memory.read_write_other hj]

/-- A write of `LEN` changes it alone, and the record as R164 says. -/
theorem hostWriteLen_writes {o : Owner} (ho : (s.engine e).owner.afterTouch = o) {n : Nat}
    (hn : s.params.admits n = true) :
    hostAccess (.writeLen e n) s = .next (s.setEngine e { s.engine e with len := n, owner := o }) := by
  subst ho
  simp only [hostAccess, hostWriteLen, if_neg hb, if_pos hn]
  rfl

theorem hostReadSrc_element {i : Nat} (hi : s.params.admits (i + 1) = true) :
    hostAccess (.readSrc e i) s = .next (s.setOut (.element (s.readSrc e i))) := by
  simp only [hostAccess, hostReadSrc, if_neg hb, if_pos hi]

/-- A read of a result's `DST[i]` gives the element (R125, R166). -/
theorem hostReadDst_element {i : Nat} (hr : (s.engine e).resultAt e i = true) :
    hostAccess (.readDst e i) s = .next (s.setOut (.element (s.readDst e i))) := by
  simp only [hostAccess, hostReadDst, if_neg hb, if_pos hr]

/-- A read of `DST` where the buffers are not the host's presents a free value (R164). -/
theorem hostReadDst_unowned (ho : (s.engine e).owner ≠ .host) (i : Nat) :
    hostAccess (.readDst e i) s =
      .next ((s.setEngine e (s.engine e).touch).presentFree fun v => .element (BitVec.ofNat 8 v)) := by
  have hr : (s.engine e).resultAt e i = false := by simp [Engine.resultAt, ho]
  simp [hostAccess, hostReadDst, hb, hr]

end BufferAccesses

/-- `DST[i]` below OUT_LEN of a finished call is part of its result where the buffers are the host's (R125, R166). -/
theorem Engine.resultAt_of_outLen {e : EngineId} {g : Engine} (ho : g.owner = .host) (hd : g.status = .done)
    {i n : Nat} (hn : g.outLen e = some n) (hi : i < n) : g.resultAt e i = true := by
  have hlen : outputLength e g.len = n := by simpa [Engine.outLen, hd] using hn
  simp [Engine.resultAt, hd, ho, hlen, hi]

/-- Settles O37, access by access: outside the window of R164 the record stays and
what is left is the access itself. -/
theorem hostBufferAccessesOutsideCall : Obligations.HostBufferAccessesOutsideCall := by
  intro e s hb
  refine ⟨fun hc => ?_, fun i hi => hostReadSrc_element hb hi, fun ho i n hd hn hi =>
    hostReadDst_element hb (Engine.resultAt_of_outLen ho hd hn hi)⟩
  have ho := Owner.afterTouch_of_ne_call hc
  exact ⟨fun i v hi => hostWriteSrc_writes hb ho v hi, fun n hn => hostWriteLen_writes hb ho hn⟩

section RegisterReads
variable {s : State} {e : EngineId}

theorem hostReadErrKind_kept (h : (s.engine e).spoilt .error = false) :
    hostAccess (.readErrKind e) s = .next (s.setOut (.errKind (s.engine e).errKind.code)) := by
  simp [hostAccess, hostReadErrKind, h]

theorem hostReadErrPos_kept (h : (s.engine e).spoilt .error = false) :
    hostAccess (.readErrPos e) s = .next (s.setOut (.errPos (s.engine e).errPos)) := by
  simp [hostAccess, hostReadErrPos, h]

theorem hostReadOutLen_kept (h : (s.engine e).spoilt .done = false) {n : Nat} (hn : (s.engine e).outLen e = some n) :
    hostAccess (.readOutLen e) s = .next (s.setOut (.outLen n)) := by
  simp [hostAccess, hostReadOutLen, h, hn]

theorem hostReadErrKind_spoilt (h : (s.engine e).spoilt .error = true) :
    hostAccess (.readErrKind e) s = .next (s.presentFree fun v => .errKind (freeErrKind v)) := by
  simp [hostAccess, hostReadErrKind, h]

theorem hostReadErrPos_spoilt (h : (s.engine e).spoilt .error = true) :
    hostAccess (.readErrPos e) s = .next (s.presentFree fun v => .errPos (freeErrPos s.params v)) := by
  simp [hostAccess, hostReadErrPos, h]

theorem hostReadOutLen_spoilt (h : (s.engine e).spoilt .done = true) :
    hostAccess (.readOutLen e) s = .next (s.presentFree .outLen) := by
  simp [hostAccess, hostReadOutLen, h]

/-- Of a call for which the host kept R164 nothing is unspecified. -/
theorem Engine.not_spoilt_of_owner {g : Engine} (h : g.owner ≠ .broken) (st : Status) : g.spoilt st = false := by
  simp [Engine.spoilt, h]

theorem Engine.outLen_done {g : Engine} (h : g.status = .done) : g.outLen e = some (outputLength e g.len) := by
  simp [Engine.outLen, h]

theorem Engine.outLen_error {g : Engine} (h : g.status = .error) : g.outLen e = some 0 := by
  simp [Engine.outLen, h]

/-- A read of STATUS gives its code and moves the record as R164 says. -/
theorem hostReadStatus_code : hostAccess (.readStatus e) s = .next
    ((s.setEngine e { s.engine e with owner :=
      if (s.engine e).owner = .call ∧ ((s.engine e).status = .done ∨ (s.engine e).status = .error) then .host
      else (s.engine e).owner }).setOut (.status (s.engine e).status.code)) := by
  rw [← Owner.afterStatusRead_eq]
  rfl

end RegisterReads

/-- Settles O36: each register's read, and for the encoder that the invariant keeps its error registers 0. -/
theorem hostRegisterReadValues : Obligations.HostRegisterReadValues := by
  intro e s
  refine ⟨hostReadStatus_code, fun _ => rfl, fun h => ?_, fun hs => ?_, fun h => ?_, fun ho h => ?_, fun ho h => ?_⟩
  · have hkept : (s.engine e).spoilt .error = false :=
      h.elim (Engine.not_spoilt_of_owner · .error) Engine.not_spoilt_error
    exact ⟨hostReadErrKind_kept hkept, hostReadErrPos_kept hkept⟩
  · have hkept : (s.engine .encoder).spoilt .error = false := Engine.not_spoilt_error hs.encNoError
    have hkind : s.enc.errKind = .none := hs.encSound.errorKind.2 hs.encNoError
    have hpos : s.enc.errPos = 0 := hs.encSound.errorPos hs.encNoError
    rw [hostReadErrKind_kept hkept, hostReadErrPos_kept hkept, State.engine_encoder, hkind, hpos]
    exact ⟨rfl, rfl⟩
  · exact hostReadOutLen_kept (by simp [Engine.spoilt, h]) (Engine.outLen_error h)
  · exact hostReadOutLen_kept (e := .encoder) (Engine.not_spoilt_of_owner ho .done) (Engine.outLen_done h)
  · exact hostReadOutLen_kept (e := .decoder) (Engine.not_spoilt_of_owner ho .done) (Engine.outLen_done h)

/-- Settles O38: each refused access looks at STATUS first, and the read of LEN does not look at it. -/
theorem buffersRefusedWhileBusy : Obligations.BuffersRefusedWhileBusy := by
  intro e s hb
  exact ⟨fun _ _ => if_pos hb, fun _ => if_pos hb, fun _ => if_pos hb, fun _ => if_pos hb, rfl⟩

/-- A spoilt result stays spoilt under every move of an engine that is not BUSY but a START or a reset (R164). -/
theorem EngineStep.broken_stays {p : Params} {e : EngineId} {g g' : Engine} (h : EngineStep p e g g')
    (hb : g.status ≠ .busy) (ho : g.owner = .broken) :
    g'.owner = .broken ∨ g' = g.start ∨ g' = Engine.reset := by
  cases h with
  | kept => exact .inl ho
  | reset => exact .inr (.inr rfl)
  | start => exact .inr (.inl rfl)
  | writeSrc | writeLen | readDst => exact .inl (by simp [ho, Owner.afterTouch_eq])
  | statusRead => exact .inl (by simp [ho, Owner.afterStatusRead_eq])
  | group _ _ h | finish h | miss _ h | dangle h => exact absurd h hb

/-- Settles O59: an access inside the window moves the record from `call` to `broken`, a result spoilt so presents free
values, and no step but a START or a reset takes the record back. -/
theorem accessBeforeStatusReadSpoilsResult : Obligations.AccessBeforeStatusReadSpoilsResult := by
  refine ⟨fun e s hb ho => ?_, fun e s hb ho => ?_,
    fun s t e hb ho h => ((step_frame h).engine e).broken_stays hb ho⟩
  · have htouch : (s.engine e).owner.afterTouch = .broken := by rw [ho]; rfl
    refine ⟨fun i v hi => hostWriteSrc_writes hb htouch v hi, fun n hn => hostWriteLen_writes hb htouch hn,
      fun i => ⟨BitVec.ofNat 8 (Config.freeValue s.draws), ?_⟩⟩
    rw [hostReadDst_unowned hb (by simp [ho])]
    simp only [Engine.touch, htouch]
    cases e <;> rfl
  · have hspoilt : ∀ st, (s.engine e).status = st → (s.engine e).spoilt st = true := fun st h =>
      (Engine.spoilt_iff st _).2 ⟨h, ho⟩
    refine ⟨fun i => ?_, fun hd => ⟨_, hostReadOutLen_spoilt (hspoilt _ hd)⟩, fun he hmax =>
      ⟨⟨_, freeErrKind_ne_three _, hostReadErrKind_spoilt (hspoilt _ he)⟩,
        _, freeErrPos_admitted hmax _, hostReadErrPos_spoilt (hspoilt _ he)⟩⟩
    rw [hostReadDst_unowned hb (by simp [ho]), Engine.touch_of_ne_call (by simp [ho]), State.setEngine_self]
    exact ⟨_, rfl⟩

end Sys2Proof.Machine
end

section
/-! SUPPORT. The reset state, the parameters, the operations of one engine, and what a step leaves of an engine that is
not BUSY. -/

namespace Sys2Proof.Machine

/-- Settles O39: the registers, and that a buffer that lists nothing reads as the free values of epoch 0. -/
theorem resetValues : Obligations.ResetValues := by
  intro e
  cases e <;> exact ⟨rfl, rfl, rfl, rfl, rfl, rfl, fun _ => ⟨rfl, rfl⟩⟩

/-- Settles O41: the invariant is the engines' own, and holds of an engine after reset. -/
theorem resetMeetsInvariant : Obligations.ResetMeetsInvariant :=
  State.reset.inv_iff.2 ⟨rfl, fun e => by cases e <;> exact .reset rfl⟩

/-- Settles O47: part of the frame of every step. -/
theorem parametersNeverChange : Obligations.ParametersNeverChange :=
  fun _ _ h => (step_frame h).params

/-- The engine that `e` shares nothing with (R20). -/
def EngineId.other : EngineId → EngineId
  | .encoder => .decoder
  | .decoder => .encoder

/-- `op` is an operation of engine `e`: it goes on only while that engine is BUSY, changes that engine and for the
decoder the count of free values, and does the same whatever the other engine holds (R20). -/
structure EngineOp (e : EngineId) (op : State → Host.Outcome State Fault Refusal) : Prop where
  busy {s t : State} : op s = .next t → (s.engine e).status = .busy
  frame {s t : State} : op s = .next t → t = { s.setEngine e (t.engine e) with draws := t.draws }
  draws {s t : State} : op s = .next t → e = .encoder → t.draws = s.draws
  independent {s t : State} (g : Engine) : op s = .next t → op (s.setEngine e.other g) = .next (t.setEngine e.other g)

/-- The forward direction for the encoder's end. -/
theorem execEncDone_eq {s : State} (hb : s.enc.status = .busy) (hl : s.enc.remaining = 0) :
    execEncDone s = .next (s.setEngine .encoder s.enc.finish) :=
  if_pos ((Engine.runs_iff _ _).2 ⟨hb, decide_eq_true hl⟩)

/-- The forward direction for the decoder's end. -/
theorem execDecDone_eq {s : State} (hb : s.dec.status = .busy) (hl : s.dec.remaining = 0) :
    execDecDone s = .next (s.setEngine .decoder s.dec.finish) :=
  if_pos ((Engine.runs_iff _ _).2 ⟨hb, decide_eq_true hl⟩)

/-- The forward direction for an ignored dangling character. -/
theorem execDecDangle_ignore {s : State} (hb : s.dec.status = .busy) (hl : s.dec.remaining = 1)
    (hp : s.params.dangle = .ignore) : execDecDangle s = .next (s.setEngine .decoder (s.dec.advance 1)) := by
  unfold execDecDangle
  rw [if_pos ((Engine.runs_iff _ _).2 ⟨hb, decide_eq_true hl⟩), hp]

/-- The forward direction for a rejected dangling character. -/
theorem execDecDangle_reject {s : State} (hb : s.dec.status = .busy) (hl : s.dec.remaining = 1)
    (hp : s.params.dangle = .reject) :
    execDecDangle s = .next (s.setEngine .decoder (s.dec.raise .lengthError s.dec.pos)) := by
  unfold execDecDangle
  rw [if_pos ((Engine.runs_iff _ _).2 ⟨hb, decide_eq_true hl⟩), hp]

theorem engineOp_encPair (x : BitVec 1) : EngineOp .encoder (execEncPair x) where
  busy h := (execEncPair_next x h).1
  frame h := by obtain ⟨-, -, _, _, _, -, rfl⟩ := execEncPair_next x h; rfl
  draws h _ := by obtain ⟨-, -, _, _, _, -, rfl⟩ := execEncPair_next x h; rfl
  independent {s _} g h := by
    obtain ⟨hb, hl, _, _, _, hp, rfl⟩ := execEncPair_next x h
    exact execEncPair_eq (s := s.setEngine .decoder g) x hb hl hp

theorem engineOp_encTail : EngineOp .encoder execEncTail where
  busy h := (execEncTail_next h).1
  frame h := by obtain ⟨-, -, _, _, -, rfl⟩ := execEncTail_next h; rfl
  draws h _ := by obtain ⟨-, -, _, _, -, rfl⟩ := execEncTail_next h; rfl
  independent {s _} g h := by
    obtain ⟨hb, hl, _, _, hp, rfl⟩ := execEncTail_next h
    exact execEncTail_eq (s := s.setEngine .decoder g) hb hl hp

theorem engineOp_encDone : EngineOp .encoder execEncDone where
  busy h := (execEncDone_next h).1
  frame h := by obtain ⟨-, -, rfl⟩ := execEncDone_next h; rfl
  draws h _ := by obtain ⟨-, -, rfl⟩ := execEncDone_next h; rfl
  independent {s _} g h := by
    obtain ⟨hb, hl, rfl⟩ := execEncDone_next h
    exact execEncDone_eq (s := s.setEngine .decoder g) hb hl

theorem engineOp_decTriplet : EngineOp .decoder execDecTriplet where
  busy h := (execDecTriplet_next h).1
  frame h := by obtain ⟨-, -, ⟨_, -, rfl⟩ | ⟨_, _, _, -, rfl⟩⟩ := execDecTriplet_next h <;> rfl
  draws _ := nofun
  independent {s _} g h := by
    obtain ⟨hb, hl, ⟨_, hp, rfl⟩ | ⟨_, _, _, hp, rfl⟩⟩ := execDecTriplet_next h
    · exact execDecTriplet_error (s := s.setEngine .encoder g) hb hl hp
    · exact execDecTriplet_ok (s := s.setEngine .encoder g) hb hl hp

theorem engineOp_decTail : EngineOp .decoder execDecTail where
  busy h := (execDecTail_next h).1
  frame h := by obtain ⟨-, -, ⟨_, -, rfl⟩ | ⟨_, _, -, rfl⟩⟩ := execDecTail_next h <;> rfl
  draws _ := nofun
  independent {s _} g h := by
    obtain ⟨hb, hl, ⟨_, hp, rfl⟩ | ⟨_, _, hp, rfl⟩⟩ := execDecTail_next h
    · exact execDecTail_error (s := s.setEngine .encoder g) hb hl hp
    · exact execDecTail_ok (s := s.setEngine .encoder g) hb hl hp

theorem engineOp_decDangle : EngineOp .decoder execDecDangle where
  busy h := (execDecDangle_next h).1
  frame h := by obtain ⟨-, -, ⟨-, rfl⟩ | ⟨-, rfl⟩⟩ := execDecDangle_next h <;> rfl
  draws _ := nofun
  independent {s _} g h := by
    obtain ⟨hb, hl, ⟨hp, rfl⟩ | ⟨hp, rfl⟩⟩ := execDecDangle_next h
    · exact execDecDangle_ignore (s := s.setEngine .encoder g) hb hl hp
    · exact execDecDangle_reject (s := s.setEngine .encoder g) hb hl hp

theorem engineOp_decDone : EngineOp .decoder execDecDone where
  busy h := (execDecDone_next h).1
  frame h := by obtain ⟨-, -, rfl⟩ := execDecDone_next h; rfl
  draws _ := nofun
  independent {s _} g h := by
    obtain ⟨hb, hl, rfl⟩ := execDecDone_next h
    exact execDecDone_eq (s := s.setEngine .encoder g) hb hl

/-- An engine's selector is a word of the table, and its operation one of that engine (R68 to R70). -/
theorem decode_selector (e : EngineId) (g : Engine) :
    ∃ i, decode .sel3 (selector e g) = .ok i ∧ EngineOp e (exec i) := by
  obtain ⟨n, hn, hrc⟩ : ∃ n, n < 4 ∧ g.rc = n := ⟨g.rc, by unfold Engine.rc; omega, rfl⟩
  unfold selector
  rw [hrc]
  cases e with
  | encoder =>
    match n, hn with
    | 0, _ => exact ⟨_, rfl, engineOp_encDone⟩
    | 1, _ => exact ⟨_, rfl, engineOp_encTail⟩
    | 2, _ => exact ⟨_, rfl, engineOp_encPair 0⟩
    | 3, _ => exact ⟨_, rfl, engineOp_encPair 1⟩
  | decoder =>
    match n, hn with
    | 0, _ => exact ⟨_, rfl, engineOp_decDone⟩
    | 1, _ => exact ⟨_, rfl, engineOp_decDangle⟩
    | 2, _ => exact ⟨_, rfl, engineOp_decTail⟩
    | 3, _ => exact ⟨_, rfl, engineOp_decTriplet⟩

section EngineTurns
variable {s : State} {e : EngineId} {r : List Agent}

/-- On its turn an engine that is not BUSY lets the turn pass (R156). -/
theorem step_engine_idle (ht : s.turns = .engine e :: r) (hb : (s.engine e).status ≠ .busy) :
    step s = .next { s with turns := r } := by
  have hb' : (State.engine e { s with turns := r }).status ≠ .busy := by cases e <;> exact hb
  unfold step
  rw [State.fetch_engine ht, State.engineMove, if_neg hb']

/-- On its turn a BUSY engine executes the operation of its selector (R68). -/
theorem step_engine_busy (ht : s.turns = .engine e :: r) (hb : (s.engine e).status = .busy) {i : Instr}
    (hd : decode .sel3 (selector e (s.engine e)) = .ok i) : step s = exec i { s with turns := r } := by
  have he : State.engine e { s with turns := r } = s.engine e := by cases e <;> rfl
  refine step_word (p := .sel3) (w := selector e (s.engine e)) ?_ hd
  rw [State.fetch_engine ht, State.engineMove, he, if_pos hb]

theorem State.engine_setEngine_of_other (g : Engine) : (s.setEngine e.other g).engine e = s.engine e := by
  cases e <;> rfl

theorem State.setEngine_withTurns (g : Engine) :
    { s.setEngine e g with turns := r } = State.setEngine e g { s with turns := r } := by cases e <;> rfl

/-- An engine's turn changes that engine, the turns and for the decoder the count of free values, and is the same
whatever the other engine holds (R20). -/
theorem step_engine_own {t : State} (ht : s.turns = .engine e :: r) (h : step s = .next t) :
    t = { s.setEngine e (t.engine e) with turns := r, draws := t.draws } ∧ (e = .encoder → t.draws = s.draws) ∧
    ∀ g, step (s.setEngine e.other g) = .next (t.setEngine e.other g) := by
  have ht' : ∀ g, (s.setEngine e.other g).turns = .engine e :: r := fun g =>
    (State.setEngine_turns e.other s g).trans ht
  have he : ∀ g, (s.setEngine e.other g).engine e = s.engine e := State.engine_setEngine_of_other
  by_cases hb : (s.engine e).status = .busy
  · obtain ⟨i, hd, hop⟩ := decode_selector e (s.engine e)
    rw [step_engine_busy ht hb hd] at h
    have hdraws := hop.draws h
    refine ⟨(hop.frame h).trans (by cases e <;> rfl), hdraws, fun g => ?_⟩
    rw [step_engine_busy (ht' g) ((he g).symm ▸ hb) ((he g).symm ▸ hd), State.setEngine_withTurns]
    exact hop.independent g h
  · rw [step_engine_idle ht hb] at h
    cases h
    refine ⟨by cases e <;> rfl, fun _ => rfl, fun g => ?_⟩
    rw [step_engine_idle (ht' g) ((he g).symm ▸ hb), State.setEngine_withTurns]

end EngineTurns

/-- Settles O48: an engine's turn is its own, for either engine. -/
theorem enginesAreIndependent : Obligations.EnginesAreIndependent := by
  refine ⟨fun s t r ht h => ?_, fun s t r ht h => ?_⟩
  · obtain ⟨hframe, hdraws, hother⟩ := step_engine_own ht h
    exact ⟨hframe.trans (by rw [hdraws rfl]; rfl), hother⟩
  · obtain ⟨hframe, -, hother⟩ := step_engine_own ht h
    exact ⟨hframe, hother⟩

@[simp] theorem State.engine_setOut (e : EngineId) (s : State) (o : Output) :
    (s.setOut o).engine e = s.engine e := by cases e <;> rfl

@[simp] theorem State.engine_drawn (e : EngineId) (s : State) (k : Nat) : (s.drawn k).engine e = s.engine e := by
  cases e <;> rfl

theorem EngineOp.epoch {e : EngineId} {op : State → Host.Outcome State Fault Refusal} (hop : EngineOp e op)
    {s t : State} (h : op s = .next t) : t.epoch = s.epoch :=
  (congrArg State.epoch (hop.frame h)).trans (State.setEngine_epoch e s _)

theorem EngineOp.engine_other {e : EngineId} {op : State → Host.Outcome State Fault Refusal} (hop : EngineOp e op)
    {s t : State} (h : op s = .next t) {e' : EngineId} (hne : e' ≠ e) : t.engine e' = s.engine e' :=
  calc t.engine e' = (s.setEngine e (t.engine e)).engine e' :=
        (congrArg (State.engine e') (hop.frame h)).trans (by cases e' <;> rfl)
    _ = s.engine e' := State.engine_setEngine_other s _ hne

/-- From `s` to `t` engine `e` is as it was, or a call is started on it, and there is no reset. -/
def KeptOrStarted (e : EngineId) (s t : State) : Prop :=
  t.epoch = s.epoch ∧ (t.engine e = s.engine e ∨ t.engine e = (s.engine e).start)

/-- START on either engine keeps an engine, or starts a call on it. -/
theorem startCall_idle {e e' : EngineId} {s t : State} (h : s.startCall e' = .next t) : KeptOrStarted e s t := by
  obtain ⟨-, hr⟩ | ⟨-, hn⟩ := s.startCall_cases e'
  · rw [hr] at h; cases h
  · rw [hn] at h; cases h
    refine ⟨State.setEngine_epoch e' s _, ?_⟩
    by_cases he : e = e'
    · subst he
      exact .inr (State.engine_setEngine_same e s _)
    · exact .inl (State.engine_setEngine_other s _ he)

/-- An operation of the table keeps an engine that is not BUSY, or starts a call on it. -/
theorem exec_idle {e : EngineId} {i : Instr} {s t : State} (hb : (s.engine e).status ≠ .busy)
    (h : exec i s = .next t) : KeptOrStarted e s t := by
  have own : ∀ e', EngineOp e' (exec i) → KeptOrStarted e s t := fun e' hop =>
    have hne : e ≠ e' := fun he => hb (he ▸ hop.busy h)
    ⟨hop.epoch h, .inl (hop.engine_other h hne)⟩
  have func : ∀ f, (encode i).port = .func f → KeptOrStarted e s t := fun f hi => by
    obtain ⟨o, rfl⟩ | ⟨f, rfl⟩ := exec_func_next hi h
    · exact ⟨rfl, .inl (State.engine_setOut e s o)⟩
    · exact ⟨rfl, .inl (by cases e <;> rfl)⟩
  cases i with
  | encDone => exact own _ engineOp_encDone
  | encTail => exact own _ engineOp_encTail
  | encPair x => exact own _ (engineOp_encPair x)
  | decDone => exact own _ engineOp_decDone
  | decDangle => exact own _ engineOp_decDangle
  | decTail => exact own _ engineOp_decTail
  | decTriplet => exact own _ engineOp_decTriplet
  | startEncode | startDecode => exact startCall_idle h
  | _ => exact func _ rfl

/-- What a step from `s` may make of engine `e` while it is not BUSY, beside a START and a reset, and which access of
the host it was. -/
inductive IdleMove (e : EngineId) (s : State) : Engine → Prop where
  | kept : IdleMove e s (s.engine e)
  | statusRead : IdleMove e s (s.engine e).statusRead
  | writeSrc {i : Nat} {v : Byte} {u : State} : s.fetch = .access (.writeSrc e i v) u →
      IdleMove e s ((s.engine e).writeSrc i v).touch
  | writeLen {n : Nat} {u : State} : s.fetch = .access (.writeLen e n) u →
      IdleMove e s ((s.engine e).writeLen n).touch
  | readDst {i : Nat} {u : State} : s.fetch = .access (.readDst e i) u → IdleMove e s (s.engine e).touch

section IdleMoves
variable {s t : State} {e : EngineId} {g : Engine}

/-- A move made of one engine is one of that engine, and none of the other. -/
theorem IdleMove.of_setEngine {u : State} {e' : EngineId} (hu : ∀ e, u.engine e = s.engine e)
    (h : e = e' → IdleMove e s g) : IdleMove e s ((u.setEngine e' g).engine e) := by
  by_cases he : e = e'
  · rw [← he, State.engine_setEngine_same]
    exact h he
  · rw [State.engine_setEngine_other u g he, hu e]
    exact .kept

/-- What an access of the host makes of an engine. -/
theorem hostAccess_idle {a : HostAccess} {u : State} (hf : s.fetch = .access a u)
    (hu : ∀ e, u.engine e = s.engine e) (h : hostAccess a u = .next t) :
    t.engine e = Engine.reset ∨ (t.epoch = u.epoch ∧ IdleMove e s (t.engine e)) := by
  obtain ⟨-, rfl⟩ | ⟨e', i, v, rfl, -, -, rfl⟩ | ⟨e', n, rfl, -, -, rfl⟩ | ⟨e', g, o, k, -, rfl, hg⟩ :=
    hostAccess_next_cases h
  · exact .inl (by cases e <;> rfl)
  · refine .inr ⟨State.setEngine_epoch e' u _, .of_setEngine hu fun he => ?_⟩
    subst he
    exact hu e ▸ .writeSrc hf
  · refine .inr ⟨State.setEngine_epoch e' u _, .of_setEngine hu fun he => ?_⟩
    subst he
    exact hu e ▸ .writeLen hf
  · refine .inr ⟨State.setEngine_epoch e' u _, ?_⟩
    rw [State.engine_drawn, State.engine_setOut]
    refine .of_setEngine hu fun he => ?_
    subst he
    rw [hu e] at hg
    obtain rfl | ⟨-, rfl⟩ | ⟨i, rfl, -, rfl⟩ := hg
    · exact .kept
    · exact .statusRead
    · exact .readDst hf

/-- A step starts a call on an engine that is not BUSY, resets it, or makes one of the moves of `IdleMove`. -/
theorem step_idle (hb : (s.engine e).status ≠ .busy) (h : step s = .next t) :
    t.engine e = (s.engine e).start ∨ t.engine e = Engine.reset ∨
    (t.epoch = s.epoch ∧ IdleMove e s (t.engine e)) := by
  have hframe := s.fetch_frame
  have hu : ∀ e, s.fetch.state.engine e = s.engine e := fun e => by rw [hframe]; cases e <;> rfl
  have hepoch : s.fetch.state.epoch = s.epoch := by rw [hframe]
  obtain ⟨p, w, u, i, hf, -, hx⟩ | ⟨a, u, hf, ha⟩ | hf := step_next_cases h <;> rw [hf] at hu hepoch
  · obtain ⟨ht, hkept | hstart⟩ := exec_idle (hu e ▸ hb) hx
    · exact .inr (.inr ⟨ht.trans hepoch, (hkept.trans (hu e)) ▸ .kept⟩)
    · exact .inl (hstart.trans (congrArg Engine.start (hu e)))
  · exact .inr ((hostAccess_idle hf hu ha).imp_right fun ⟨ht, hm⟩ => ⟨ht.trans hepoch, hm⟩)
  · exact .inr (.inr ⟨hepoch, (hu e) ▸ .kept⟩)

/-- Every such move leaves the registers of the result and `DST` (R172). -/
theorem IdleMove.result (h : IdleMove e s g) :
    g.status = (s.engine e).status ∧ g.errKind = (s.engine e).errKind ∧ g.errPos = (s.engine e).errPos ∧
    g.pos = (s.engine e).pos ∧ g.dst = (s.engine e).dst := by
  cases h <;> exact ⟨rfl, rfl, rfl, rfl, rfl⟩

/-- Only the host's own write of `LEN` changes it, and with it OUT_LEN (R24, R28). -/
theorem IdleMove.len (h : IdleMove e s g) : (g.len = (s.engine e).len ∧ g.outLen e = (s.engine e).outLen e) ∨
    ∃ n u, s.fetch = .access (.writeLen e n) u ∧ g.len = n := by
  cases h with
  | writeLen hf => exact .inr ⟨_, _, hf, rfl⟩
  | _ => exact .inl ⟨rfl, rfl⟩

theorem Owner.of_afterTouch_broken {o : Owner} (h : o.afterTouch = .broken) : o = .broken ∨ o = .call := by
  cases o with
  | host => cases h
  | call => exact .inr rfl
  | broken => exact .inl rfl

theorem Owner.of_afterStatusRead_broken {o : Owner} {st : Status} (h : o.afterStatusRead st = .broken) :
    o = .broken := by
  rw [o.afterStatusRead_eq] at h
  split at h
  · cases h
  · exact h

/-- Only an access that R164 forbids spoils the result (log 27). -/
theorem IdleMove.spoils (h : IdleMove e s g) (hg : g.owner = .broken) : (s.engine e).owner = .broken ∨
    ((s.engine e).owner = .call ∧ ∃ a u, s.fetch = .access a u ∧ a.touches e = true) := by
  have touched : ∀ a u, s.fetch = .access a u → a.touches e = true → (s.engine e).owner.afterTouch = .broken →
      (s.engine e).owner = .broken ∨
      ((s.engine e).owner = .call ∧ ∃ a u, s.fetch = .access a u ∧ a.touches e = true) := fun a u hf ha ho =>
    (Owner.of_afterTouch_broken ho).imp_right fun hc => ⟨hc, a, u, hf, ha⟩
  cases h with
  | kept => exact .inl hg
  | statusRead => exact .inl (Owner.of_afterStatusRead_broken hg)
  | writeSrc hf => exact touched _ _ hf (decide_eq_true rfl) hg
  | writeLen hf => exact touched _ _ hf (decide_eq_true rfl) hg
  | readDst hf => exact touched _ _ hf (decide_eq_true rfl) hg

end IdleMoves

/-- Settles O45: what each move beside a START and a reset leaves of the result. -/
theorem resultStableUntilStartOrReset : Obligations.ResultStableUntilStartOrReset := by
  intro s t e hb h
  obtain hstart | hreset | ⟨hepoch, hm⟩ := step_idle hb h
  · exact .inr (.inl hstart)
  · exact .inr (.inr hreset)
  · obtain ⟨hstatus, hkind, herr, hpos, hdst⟩ := hm.result
    exact .inl ⟨hstatus, hkind, herr, hpos, hdst, State.readDst_congr hdst hepoch, hm.len, hm.spoils⟩

end Sys2Proof.Machine
end

section
/-! SUPPORT. What a step leaves of the buffers of a call: its input, and of its DST all beyond its output. -/

namespace Sys2Proof.Machine

@[simp] theorem Engine.writeDsts_src (ws : List Host.Cell) (g : Engine) : (g.writeDsts ws).src = g.src := by
  induction ws generalizing g with
  | nil => rfl
  | cons w ws ih => exact ih _

/-- No move of a BUSY engine but a reset changes its input: the host's writes need an engine that is not BUSY. -/
theorem EngineStep.input_kept {p : Params} {e : EngineId} {g g' : Engine} (h : EngineStep p e g g')
    (hb : g.status = .busy) : (g'.src = g.src ∧ g'.len = g.len) ∨ g' = Engine.reset := by
  cases h with
  | reset => exact .inr rfl
  | start hn | writeSrc _ _ hn | writeLen _ hn | readDst hn => exact absurd hb hn
  | group k ws => exact .inl ⟨g.writeDsts_src ws, g.writeDsts_len ws⟩
  | kept | statusRead | finish | miss | dangle => exact .inl ⟨rfl, rfl⟩

/-- Settles O46: each engine makes one move of its own, and none of a BUSY engine changes its input. -/
theorem inputImmutableDuringCall : Obligations.InputImmutableDuringCall :=
  fun _ _ e hb h => ((step_frame h).engine e).input_kept hb

/-- Three characters for two bytes, rounded up (R105). -/
theorem outputLength_encoder (len : Nat) : outputLength .encoder len = (3 * len + 1) / 2 := by
  simp only [outputLength]
  split <;> omega

/-- Two bytes for three characters, rounded down (R115). -/
theorem outputLength_decoder (len : Nat) : outputLength .decoder len = 2 * len / 3 := by
  simp only [outputLength]
  split <;> omega

/-- From `g` to `g'` `DST` is written only below the output length of the elements consumed plus that of the elements
left, which at an aligned cursor is the output length of `LEN` (`outputLength_add_remaining`). -/
def WritesBelow (e : EngineId) (g g' : Engine) : Prop :=
  ∃ ws : List Host.Cell, g'.dst = (g.writeDsts ws).dst ∧
    ∀ w ∈ ws, w.1 < outputLength e g.pos + outputLength e g.remaining

theorem WritesBelow.of_dst_eq {e : EngineId} {g g' : Engine} (h : g'.dst = g.dst) : WritesBelow e g g' :=
  ⟨[], h, nofun⟩

section WritesOfOperations
variable {s t : State}

/-- The three characters of a pair (R102). -/
theorem execEncPair_writesBelow (x : BitVec 1) (h : execEncPair x s = .next t) : WritesBelow .encoder s.enc t.enc := by
  obtain ⟨-, hl, c, d, e, -, rfl⟩ := execEncPair_next x h
  refine ⟨[(_, _), (_, _), (_, _)], rfl, ?_⟩
  simp only [List.forall_mem_cons, outputLength_encoder]
  refine ⟨?_, ?_, ?_, nofun⟩ <;> omega

/-- The two characters of the encoder's tail (R103). -/
theorem execEncTail_writesBelow (h : execEncTail s = .next t) : WritesBelow .encoder s.enc t.enc := by
  obtain ⟨-, hl, c, d, -, rfl⟩ := execEncTail_next h
  refine ⟨[(_, _), (_, _)], rfl, ?_⟩
  simp only [List.forall_mem_cons, outputLength_encoder]
  refine ⟨?_, ?_, nofun⟩ <;> omega

/-- The two bytes of a triplet, or nothing where it faults (R111, R143). -/
theorem execDecTriplet_writesBelow (h : execDecTriplet s = .next t) : WritesBelow .decoder s.dec t.dec := by
  obtain ⟨-, hl, ⟨q, -, rfl⟩ | ⟨c, d, e, -, rfl⟩⟩ := execDecTriplet_next h
  · exact .of_dst_eq rfl
  · refine ⟨[(_, _), (_, _)], rfl, ?_⟩
    simp only [List.forall_mem_cons, outputLength_decoder]
    refine ⟨?_, ?_, nofun⟩ <;> omega

/-- The byte of the decoder's tail, or nothing where it faults (R112, R143). -/
theorem execDecTail_writesBelow (h : execDecTail s = .next t) : WritesBelow .decoder s.dec t.dec := by
  obtain ⟨-, hl, ⟨q, -, rfl⟩ | ⟨c, d, -, rfl⟩⟩ := execDecTail_next h
  · exact .of_dst_eq rfl
  · refine ⟨[(_, _)], rfl, ?_⟩
    simp only [List.forall_mem_cons, outputLength_decoder]
    refine ⟨?_, nofun⟩
    omega

theorem execEncDone_writesBelow (h : execEncDone s = .next t) : WritesBelow .encoder s.enc t.enc := by
  obtain ⟨-, -, rfl⟩ := execEncDone_next h
  exact .of_dst_eq rfl

theorem execDecDone_writesBelow (h : execDecDone s = .next t) : WritesBelow .decoder s.dec t.dec := by
  obtain ⟨-, -, rfl⟩ := execDecDone_next h
  exact .of_dst_eq rfl

/-- A dangling character gives no byte, whatever the policy (R113). -/
theorem execDecDangle_writesBelow (h : execDecDangle s = .next t) : WritesBelow .decoder s.dec t.dec := by
  obtain ⟨-, -, ⟨-, rfl⟩ | ⟨-, rfl⟩⟩ := execDecDangle_next h <;> exact .of_dst_eq rfl

/-- An operation of the table, whichever it is, on either engine. -/
theorem exec_writesBelow {e : EngineId} {i : Instr} (h : exec i s = .next t) :
    WritesBelow e (s.engine e) (t.engine e) := by
  have own : ∀ e', EngineOp e' (exec i) → WritesBelow e' (s.engine e') (t.engine e') →
      WritesBelow e (s.engine e) (t.engine e) := fun e' hop hw => by
    by_cases he : e = e'
    · exact he ▸ hw
    · exact .of_dst_eq (congrArg Engine.dst (hop.engine_other h he))
  have start : ∀ e', s.startCall e' = .next t → WritesBelow e (s.engine e) (t.engine e) := fun e' h => by
    obtain ⟨-, hkept | hstart⟩ := startCall_idle (e := e) h
    · exact .of_dst_eq (congrArg Engine.dst hkept)
    · exact .of_dst_eq ((congrArg Engine.dst hstart).trans (Engine.start_dst _))
  have func : ∀ f, (encode i).port = .func f → WritesBelow e (s.engine e) (t.engine e) := fun f hi => by
    obtain ⟨o, rfl⟩ | ⟨f, rfl⟩ := exec_func_next hi h <;> cases e <;> exact .of_dst_eq rfl
  cases i with
  | encDone => exact own _ engineOp_encDone (execEncDone_writesBelow h)
  | encTail => exact own _ engineOp_encTail (execEncTail_writesBelow h)
  | encPair x => exact own _ (engineOp_encPair x) (execEncPair_writesBelow x h)
  | decDone => exact own _ engineOp_decDone (execDecDone_writesBelow h)
  | decDangle => exact own _ engineOp_decDangle (execDecDangle_writesBelow h)
  | decTail => exact own _ engineOp_decTail (execDecTail_writesBelow h)
  | decTriplet => exact own _ engineOp_decTriplet (execDecTriplet_writesBelow h)
  | startEncode | startDecode => exact start _ h
  | _ => exact func _ rfl

end WritesOfOperations

/-- The output splits at every cursor at which a step can stand (R107, R118). -/
theorem outputLength_add_remaining {e : EngineId} {g : Engine} (hpos : g.pos ≤ g.len)
    (haligned : g.pos % e.groupSize = 0 ∨ g.pos = g.len) :
    outputLength e g.pos + outputLength e g.remaining = outputLength e g.len := by
  cases e with
  | encoder =>
    simp only [outputLength_encoder, Engine.remaining, EngineId.groupSize] at haligned ⊢
    omega
  | decoder =>
    simp only [outputLength_decoder, Engine.remaining, EngineId.groupSize] at haligned ⊢
    omega

/-- Writes elsewhere leave an element as it is. -/
theorem Engine.read_writeDsts_other {a : Nat} {ws : List Host.Cell} {g : Engine} (h : ∀ w ∈ ws, w.1 ≠ a) :
    (g.writeDsts ws).dst.read a = g.dst.read a := by
  induction ws generalizing g with
  | nil => rfl
  | cons w ws ih =>
    obtain ⟨hw, hws⟩ := List.forall_mem_cons.1 h
    exact (ih hws).trans (Memory.read_write_other hw.symm w.2 g.dst)

/-- In a call whose cursor is aligned such writes leave every element beyond the output as it is. -/
theorem WritesBelow.read_beyond {p : Params} {e : EngineId} {g g' : Engine} (h : WritesBelow e g g')
    (hs : g.SoundAs e p) (hb : g.status = .busy) {a : Nat} (ha : outputLength e g.len ≤ a) :
    g'.dst.read a = g.dst.read a := by
  obtain ⟨ws, hdst, hws⟩ := h
  rw [outputLength_add_remaining (hs.sound.posInCall hb) (hs.aligned hb)] at hws
  rw [hdst]
  exact Engine.read_writeDsts_other fun w hw => ((hws w hw).trans_le ha).ne

/-- Settles O52: the operation of the engine's selector writes below the output, since the invariant aligns the
cursor. -/
theorem writesStayInsideOutput : Obligations.WritesStayInsideOutput := by
  intro s t e r hinv ht hb h a ha
  obtain ⟨-, hsound⟩ := s.inv_iff.1 hinv
  obtain ⟨i, hd, hop⟩ := decode_selector e (s.engine e)
  rw [step_engine_busy ht hb hd] at h
  have hepoch : t.epoch = s.epoch := hop.epoch (s := { s with turns := r }) h
  have hfetched : State.engine e { s with turns := r } = s.engine e := by cases e <;> rfl
  have hwrites : WritesBelow e (s.engine e) (t.engine e) := hfetched ▸ exec_writesBelow h
  simp only [State.readDst, State.unlisted, hepoch, hwrites.read_beyond (hsound e) hb ha]

end Sys2Proof.Machine
end

section
/-! SUPPORT. Decoding and encoding: the bit fields of a word, the operation of a function's word, and that each word
that fits its port stands for exactly one operation (R64, R65, R68 to R70). -/

namespace Sys2Proof

@[simp] theorem bitField_toNat (w lo len : Nat) : (bitField w lo len).toNat = w / 2 ^ lo % 2 ^ len :=
  BitVec.toNat_ofNat _ _

theorem bitField_eq_iff {w lo len : Nat} {x : BitVec len} : bitField w lo len = x ↔ w / 2 ^ lo % 2 ^ len = x.toNat := by
  rw [← BitVec.toNat_inj, bitField_toNat]

/-- A word of a single operand gives that operand back. -/
@[simp] theorem bitField_full {len : Nat} (x : BitVec len) : bitField x.toNat 0 len = x := by
  rw [bitField_eq_iff, pow_zero, Nat.div_one, Nat.mod_eq_of_lt x.isLt]

/-- The operation that a function's word stands for, by the bit fields of opcode_table.json. -/
def Func.operation : Func → Nat → Instr
  | .merge16, w => .merge16 (bitField w 8 8) (bitField w 0 8)
  | .split16, w => .split16 (bitField w 0 16)
  | .pack16, w => .pack16 (bitField w 0 16)
  | .pack8, w => .pack8 (bitField w 0 8)
  | .unpack16, w => .unpack16 (bitField w 0 6) (bitField w 6 6) (bitField w 12 6)
  | .unpack8, w => .unpack8 (bitField w 0 6) (bitField w 6 6)
  | .lutI2c, w => .lutI2c (bitField w 0 6)
  | .lutC2i, w => .lutC2i (bitField w 0 8)

theorem decode_func_of_fits {f : Func} {w : Nat} (h : w < 2 ^ f.width) : decode (.func f) w = .ok (f.operation w) := by
  simp only [decode, decodeFunc, if_pos h]
  cases f <;> rfl

/-- The fields of a function's word, put together again, are the word (R64, R65, R90 to R96). -/
theorem encode_operation {f : Func} {w : Nat} (h : w < 2 ^ f.width) : encode (f.operation w) = ⟨.func f, w⟩ := by
  cases f
  all_goals
    simp only [Func.width, Func.operation, encode, bitField_toNat, OpWord.mk.injEq, true_and] at h ⊢
    omega

/-- A function's operation decodes from its word where the fields of that word are its operands. -/
theorem decode_encode_of_operation {i : Instr} {f : Func} (hfits : (encode i).bits < 2 ^ f.width)
    (hop : f.operation (encode i).bits = i) : decode (.func f) (encode i).bits = .ok i :=
  (decode_func_of_fits hfits).trans (congrArg _ hop)

/-- `{a, b}`: the word of `merge16` holds its two bytes apart (R90). -/
theorem operation_encode_merge16 (a b : Byte) : Func.merge16.operation (encode (.merge16 a b)).bits = .merge16 a b := by
  have ha : bitField (encode (.merge16 a b)).bits 8 8 = a := by simp only [bitField_eq_iff, encode]; omega
  have hb : bitField (encode (.merge16 a b)).bits 0 8 = b := by simp only [bitField_eq_iff, encode]; omega
  rw [Func.operation, ha, hb]

/-- `{e, d, c}`: the bundle of `unpack16` holds its three digits apart (R64). -/
theorem operation_encode_unpack16 (c d e : Digit) :
    Func.unpack16.operation (encode (.unpack16 c d e)).bits = .unpack16 c d e := by
  have hc : bitField (encode (.unpack16 c d e)).bits 0 6 = c := by simp only [bitField_eq_iff, encode]; omega
  have hd : bitField (encode (.unpack16 c d e)).bits 6 6 = d := by simp only [bitField_eq_iff, encode]; omega
  have he : bitField (encode (.unpack16 c d e)).bits 12 6 = e := by simp only [bitField_eq_iff, encode]; omega
  rw [Func.operation, hc, hd, he]

/-- `{d, c}`: the bundle of `unpack8` holds its two digits apart (R65). -/
theorem operation_encode_unpack8 (c d : Digit) : Func.unpack8.operation (encode (.unpack8 c d)).bits = .unpack8 c d := by
  have hc : bitField (encode (.unpack8 c d)).bits 0 6 = c := by simp only [bitField_eq_iff, encode]; omega
  have hd : bitField (encode (.unpack8 c d)).bits 6 6 = d := by simp only [bitField_eq_iff, encode]; omega
  rw [Func.operation, hc, hd]

/-- Settles O1, operation by operation: the selectors and START selects by their words, the functions by the fields of
their operand word. -/
theorem decodeInvertsEncode : Obligations.DecodeInvertsEncode := by
  intro i
  cases i with
  | encPair x => obtain rfl | rfl := BitVec.eq_zero_or_eq_one x <;> rfl
  | merge16 a b => exact decode_encode_of_operation (Laws.EncodeFits.merge16 a b) (operation_encode_merge16 a b)
  | split16 n =>
    exact decode_encode_of_operation (Laws.EncodeFits.split16 n) (congrArg Instr.split16 (bitField_full n))
  | pack16 n => exact decode_encode_of_operation (Laws.EncodeFits.pack16 n) (congrArg Instr.pack16 (bitField_full n))
  | pack8 n => exact decode_encode_of_operation (Laws.EncodeFits.pack8 n) (congrArg Instr.pack8 (bitField_full n))
  | unpack16 c d e =>
    exact decode_encode_of_operation (Laws.EncodeFits.unpack16 c d e) (operation_encode_unpack16 c d e)
  | unpack8 c d =>
    exact decode_encode_of_operation (Laws.EncodeFits.unpack8 c d) (operation_encode_unpack8 c d)
  | lutI2c idx =>
    exact decode_encode_of_operation (Laws.EncodeFits.lutI2c idx) (congrArg Instr.lutI2c (bitField_full idx))
  | lutC2i ch =>
    exact decode_encode_of_operation (Laws.EncodeFits.lutC2i ch) (congrArg Instr.lutC2i (bitField_full ch))
  | encDone | encTail | decDone | decDangle | decTail | decTriplet | startEncode | startDecode => rfl

/-- A word that fits its port decodes, to an operation of that word (R70). -/
theorem decode_of_fits {p : Port} {w : Nat} (h : w < 2 ^ p.width) : ∃ i, decode p w = .ok i ∧ encode i = ⟨p, w⟩ := by
  cases p with
  | sel3 =>
    have hw : w < 8 := h
    interval_cases w <;> exact ⟨_, rfl, rfl⟩
  | start =>
    have hw : w < 2 := h
    interval_cases w <;> exact ⟨_, rfl, rfl⟩
  | func f => exact ⟨f.operation w, decode_func_of_fits h, encode_operation h⟩

/-- A word with a bit beyond its port's width is rejected as too wide for that port. -/
theorem decode_of_wide {p : Port} {w : Nat} (h : 2 ^ p.width ≤ w) : decode p w = .error (.wordTooWide p) := by
  cases p with
  | sel3 =>
    obtain ⟨k, rfl⟩ : ∃ k, w = k + 8 := Nat.exists_eq_add_of_le' h
    rfl
  | start =>
    obtain ⟨k, rfl⟩ : ∃ k, w = k + 2 := Nat.exists_eq_add_of_le' h
    rfl
  | func f => exact if_neg h.not_gt

/-- Settles O3: the words that fit and the wide ones. -/
theorem decodeAssignsExactlyFittingWords : Obligations.DecodeAssignsExactlyFittingWords :=
  fun _ _ => ⟨fun h => (decode_of_fits h).imp fun _ => And.left, decode_of_wide⟩

/-- Settles O2: a word that decodes fits its port, and then it is the word of what it decodes to. -/
theorem encodeInvertsDecode : Obligations.EncodeInvertsDecode := by
  intro p w i hi
  obtain hfits | hwide := lt_or_ge w (2 ^ p.width)
  · obtain ⟨j, hj, hencode⟩ := decode_of_fits hfits
    cases hj.symm.trans hi
    exact hencode
  · cases (decode_of_wide hwide).symm.trans hi

/-- Settles O4: each word written out is the operation's own, so that O1 gives the operation back. -/
theorem writtenWordsDecode : Obligations.WrittenWordsDecode :=
  have decoded := decodeInvertsEncode
  ⟨decoded .encDone, decoded .encTail, decoded (.encPair 0), decoded (.encPair 1), decoded .decDone, decoded .decDangle,
    decoded .decTail, decoded .decTriplet, decoded .startEncode, decoded .startDecode, decoded (.merge16 65 66),
    decoded (.unpack16 11 11 8)⟩

end Sys2Proof
end

section
/-! SUPPORT. The operation of an engine's turn, by the number of elements left (R68 to R70). -/

namespace Sys2Proof.Machine

theorem Engine.rc_of_le_three {g : Engine} {n : Nat} (h : g.len - g.pos = n) (hn : n ≤ 3) : g.rc = n := by
  rw [Engine.rc, Engine.remaining, h, min_eq_left hn]

theorem Engine.rc_of_three_le {g : Engine} (h : 3 ≤ g.len - g.pos) : g.rc = 3 := min_eq_right h

/-- On its turn a BUSY engine executes the operation of `{dir, rc}` (R68). -/
theorem step_engine_of_rc {s : State} {e : EngineId} {r : List Agent} {n : Nat} {i : Instr}
    (ht : s.turns = .engine e :: r) (hb : (s.engine e).status = .busy) (hn : (s.engine e).rc = n)
    (hd : decode .sel3 (e.dir * 4 + n) = .ok i) : step s = exec i { s with turns := r } :=
  step_engine_busy ht hb (by rw [selector, hn, hd])

/-- Settles O6: the selectors 000 to 011 by the count of bytes left, and the idle turn. -/
theorem encoderTurnRunsSelectedOperation : Obligations.EncoderTurnRunsSelectedOperation := by
  intro s r ht
  refine ⟨fun hb h => ?_, fun hb h => ?_, fun hb h => ?_, fun hb h => ?_, fun hb => step_engine_idle ht hb⟩
  · exact step_engine_of_rc ht hb (Engine.rc_of_le_three h (by decide)) rfl
  · exact step_engine_of_rc ht hb (Engine.rc_of_le_three h (by decide)) rfl
  · exact step_engine_of_rc ht hb (Engine.rc_of_le_three h (by decide)) rfl
  · exact step_engine_of_rc ht hb (Engine.rc_of_three_le h) rfl

/-- Settles O7: the selectors 100 to 111 by the count of characters left, and the idle turn. -/
theorem decoderTurnRunsSelectedOperation : Obligations.DecoderTurnRunsSelectedOperation := by
  intro s r ht
  refine ⟨fun hb h => ?_, fun hb h => ?_, fun hb h => ?_, fun hb h => ?_, fun hb => step_engine_idle ht hb⟩
  · exact step_engine_of_rc ht hb (Engine.rc_of_le_three h (by decide)) rfl
  · exact step_engine_of_rc ht hb (Engine.rc_of_le_three h (by decide)) rfl
  · exact step_engine_of_rc ht hb (Engine.rc_of_le_three h (by decide)) rfl
  · exact step_engine_of_rc ht hb (Engine.rc_of_three_le h) rfl

end Sys2Proof.Machine
end

section
/-! SUPPORT. The two constant tables, each one read in terms of the other, and the two lookups by the table's entry
(R81 to R86). -/

namespace Sys2Proof.Machine

/-- Settles O20: the 45 entries of the constant table, each range looked at entry by entry. -/
theorem encodeTableContents : Obligations.EncodeTableContents := by
  refine ⟨?numerals, ?letters, ?signs⟩
  case numerals => decide
  case letters => decide
  case signs => exact ⟨rfl, rfl, rfl, rfl, rfl, rfl, rfl, rfl, rfl⟩

/-- The encode table has an entry for each of 0 to 44 (R81). -/
theorem encLut_legal {i : Digit} (h : i.toNat ≤ 44) : ∃ ch, encLut i = some ch :=
  Option.isSome_iff_exists.1 ((encLut_isSome_iff i).2 (Nat.lt_succ_of_le h))

/-- The encode table has no entry for 45 to 63 (R85). -/
theorem encLut_reserved {i : Digit} (h : 45 ≤ i.toNat) : encLut i = none := by
  rw [← Option.not_isSome_iff_eq_none, encLut_isSome_iff]
  exact h.not_gt

/-- The characters of the alphabet, decoded in its order, count from 0 to 44. -/
theorem map_decLut_alphabet : alphabet.map decLut = (List.range 45).map fun n => some (BitVec.ofNat 6 n) := by decide

/-- Of the 256 characters those of the alphabet hit, and no others. -/
theorem hits_perm_alphabet : ((List.range 256).filter fun c => (decLut (BitVec.ofNat 8 c)).isSome).Perm
    (alphabet.map BitVec.toNat) := by decide

theorem decLut_of_encLut {i : Digit} {ch : Byte} (h : encLut i = some ch) : decLut ch = some i := by
  have hlegal : i.toNat < 45 := (encLut_isSome_iff i).1 (h ▸ rfl)
  have hrow : (alphabet.map decLut)[i.toNat]? = some (decLut ch) := by rw [List.getElem?_map, ← encLut, h]; rfl
  simpa [map_decLut_alphabet, hlegal, eq_comm] using hrow

theorem mem_alphabet_of_hit {ch : Byte} (h : (decLut ch).isSome = true) : ch ∈ alphabet := by
  have hhit : ch.toNat ∈ alphabet.map BitVec.toNat :=
    hits_perm_alphabet.mem_iff.1 (List.mem_filter.2 ⟨List.mem_range.2 ch.isLt, by rwa [BitVec.ofNat_toNat]⟩)
  exact (List.mem_map_of_injective BitVec.toNat_injective).1 hhit

/-- A character of the alphabet stands in the encode table at its place in the alphabet. -/
theorem encLut_of_mem_alphabet {ch : Byte} (h : ch ∈ alphabet) : ∃ i, encLut i = some ch := by
  obtain ⟨n, hn, hch⟩ := List.getElem_of_mem h
  have hlt : n < 2 ^ 6 := Nat.lt_trans (m := 45) hn (by decide)
  exact ⟨BitVec.ofNatLT n hlt, List.getElem?_eq_some_iff.2 ⟨hn, hch⟩⟩

/-- The two tables hold the same pairs of an index and a character (R82, R83). -/
theorem decLut_eq_some_iff {ch : Byte} {i : Digit} : decLut ch = some i ↔ encLut i = some ch := by
  refine ⟨fun h => ?_, decLut_of_encLut⟩
  obtain ⟨j, hj⟩ := encLut_of_mem_alphabet (mem_alphabet_of_hit (by rw [h]; rfl))
  exact Option.some.inj (h.symm.trans (decLut_of_encLut hj)) ▸ hj

/-- Settles O19: the two mappings are one relation read in its two directions. -/
theorem alphabetIsBijective : Obligations.AlphabetIsBijective := by
  refine ⟨fun i hi => ?_, fun ch i h => ⟨Nat.le_of_lt_succ (decLut_legal h), decLut_eq_some_iff.1 h⟩,
    fun i j ch hi hj => ?_⟩
  · obtain ⟨ch, h⟩ := encLut_legal hi
    exact ⟨ch, h, decLut_eq_some_iff.2 h⟩
  · exact Option.some.inj ((decLut_eq_some_iff.2 hi).symm.trans (decLut_eq_some_iff.2 hj))

/-- Settles O21: a hit and a miss by `decLut_eq_some_iff`, the count as the number of the
alphabet's characters. -/
theorem decodeTableInvertsEncodeTable : Obligations.DecodeTableInvertsEncodeTable := by
  refine ⟨fun ch i _ h => decLut_eq_some_iff.2 h, fun ch hnone => ?_, hits_perm_alphabet.length_eq⟩
  refine Option.eq_none_iff_forall_ne_some.2 fun i h => ?_
  exact hnone i (Nat.le_of_lt_succ (decLut_legal h)) (decLut_eq_some_iff.1 h)

section Lookups
variable {s : State} {i : Digit} {ch : Byte}

theorem exec_lutI2c_of_entry (h : encLut i = some ch) : exec (.lutI2c i) s = .next (s.setOut (.character ch)) := by
  simp only [exec, execLutI2c, h]

theorem exec_lutI2c_of_no_entry (h : encLut i = none) :
    exec (.lutI2c i) s = .next (s.presentFree fun v => .character (BitVec.ofNat 8 v)) := by
  simp only [exec, execLutI2c, h]

theorem exec_lutC2i_of_hit (h : decLut ch = some i) : exec (.lutC2i ch) s = .next (s.setOut (.lookup 1 i)) := by
  simp only [exec, execLutC2i, h]

theorem exec_lutC2i_of_miss (h : decLut ch = none) :
    exec (.lutC2i ch) s = .next (s.presentFree fun v => .lookup 0 (BitVec.ofNat 6 v)) := by
  simp only [exec, execLutC2i, h]

end Lookups

/-- Settles O22: a legal index has an entry, which the lookup presents. -/
theorem indexLookupGivesCharacter : Obligations.IndexLookupGivesCharacter := fun _ _ hi =>
  (encLut_legal hi).imp fun _ h => ⟨h, exec_lutI2c_of_entry h⟩

/-- Settles O23: a reserved index has no entry, and the lookup presents a free value. -/
theorem indexLookupReservedCompletes : Obligations.IndexLookupReservedCompletes := fun _ _ hi =>
  ⟨_, exec_lutI2c_of_no_entry (encLut_reserved hi)⟩

/-- Settles O24: the hit presents the table's legal index, the miss a free one. -/
theorem characterLookupGivesHitAndIndex : Obligations.CharacterLookupGivesHitAndIndex := fun _ _ =>
  ⟨fun _ h => ⟨Nat.le_of_lt_succ (decLut_legal h), exec_lutC2i_of_hit h⟩, fun h => ⟨_, exec_lutC2i_of_miss h⟩⟩

end Sys2Proof.Machine
end

section
/-! SUPPORT. The scalar packing functions as arithmetic on naturals, in both directions, and their operations
(R90 to R98). -/

namespace Sys2Proof.Machine

section Values
variable (a b n8 : Byte) (n : BitVec 16) (c d e : Digit)

@[simp] theorem merge16_toNat : (merge16 a b).toNat = a.toNat * 256 + b.toNat := by
  simp only [merge16, BitVec.toNat_ofNat]
  omega

theorem split16_eq_iff : split16 n = (a, b) ↔ a.toNat = n.toNat / 256 ∧ b.toNat = n.toNat % 256 := by
  simp only [split16, Prod.mk.injEq, ← BitVec.toNat_inj, BitVec.toNat_ofNat]
  omega

/-- The digits of `pack16` are those of the equivalent form in R92. -/
theorem pack16_eq_iff : pack16 n = (c, d, e) ↔
    c.toNat = n.toNat % 45 ∧ d.toNat = n.toNat / 45 % 45 ∧ e.toNat = n.toNat / 2025 := by
  simp only [pack16, Prod.mk.injEq, ← BitVec.toNat_inj, BitVec.toNat_ofNat]
  omega

theorem pack8_eq_iff : pack8 n8 = (c, d) ↔ c.toNat = n8.toNat % 45 ∧ d.toNat = n8.toNat / 45 := by
  simp only [pack8, Prod.mk.injEq, ← BitVec.toNat_inj, BitVec.toNat_ofNat]
  omega

theorem pack16_digits : (pack16 n).1.toNat = n.toNat % 45 ∧ (pack16 n).2.1.toNat = n.toNat / 45 % 45 ∧
    (pack16 n).2.2.toNat = n.toNat / 2025 :=
  (pack16_eq_iff n _ _ _).1 rfl

theorem split16_bytes : (split16 n).1.toNat = n.toNat / 256 ∧ (split16 n).2.toNat = n.toNat % 256 :=
  (split16_eq_iff _ _ n).1 rfl

theorem pack8_digits : (pack8 n8).1.toNat = n8.toNat % 45 ∧ (pack8 n8).2.toNat = n8.toNat / 45 :=
  (pack8_eq_iff n8 _ _).1 rfl

/-- 17 bits hold the value of any three digits, the reserved ones too (R97). -/
@[simp] theorem unpack16_toNat : (unpack16 c d e).toNat = c.toNat + d.toNat * 45 + e.toNat * 2025 := by
  simp only [unpack16, BitVec.toNat_ofNat]
  omega

end Values

/-- 11 bits hold the value of two digits where the second is legal (R97). -/
theorem unpack8_toNat {d : Digit} (c : Digit) (hd : d.toNat ≤ 44) : (unpack8 c d).toNat = c.toNat + d.toNat * 45 := by
  simp only [unpack8, BitVec.toNat_ofNat]
  omega

theorem merge16_split16 (n : BitVec 16) : merge16 (split16 n).1 (split16 n).2 = n := by
  obtain ⟨ha, hb⟩ := split16_bytes n
  rw [← BitVec.toNat_inj, merge16_toNat, ha, hb]
  omega

theorem split16_merge16 (a b : Byte) : split16 (merge16 a b) = (a, b) := by
  rw [split16_eq_iff, merge16_toNat]
  omega

theorem unpack16_pack16_toNat (n : BitVec 16) :
    (unpack16 (pack16 n).1 (pack16 n).2.1 (pack16 n).2.2).toNat = n.toNat := by
  obtain ⟨hc, hd, he⟩ := pack16_digits n
  rw [unpack16_toNat, hc, hd, he]
  omega

theorem unpack8_pack8_toNat (n : Byte) : (unpack8 (pack8 n).1 (pack8 n).2).toNat = n.toNat := by
  obtain ⟨hc, hd⟩ := pack8_digits n
  rw [unpack8_toNat _ (by omega), hc, hd]
  omega

section Legal
variable {c d e : Digit} (hc : c.toNat ≤ 44) (hd : d.toNat ≤ 44)
include hc hd

theorem pack8_unpack8 (h : (unpack8 c d).toNat ≤ 255) : pack8 (BitVec.ofNat 8 (unpack8 c d).toNat) = (c, d) := by
  rw [unpack8_toNat c hd] at h
  rw [pack8_eq_iff, unpack8_toNat c hd, BitVec.toNat_ofNat, Nat.mod_eq_of_lt (Nat.lt_succ_of_le h)]
  omega

/-- The positional representation is unique (R98), whatever the third digits are. -/
theorem unpack16_injOn {c' d' e' : Digit} (hc' : c'.toNat ≤ 44) (hd' : d'.toNat ≤ 44)
    (h : unpack16 c d e = unpack16 c' d' e') : c = c' ∧ d = d' ∧ e = e' := by
  simp only [← BitVec.toNat_inj, unpack16_toNat] at h ⊢
  omega

theorem pack16_unpack16 (h : (unpack16 c d e).toNat ≤ 65535) :
    pack16 (BitVec.ofNat 16 (unpack16 c d e).toNat) = (c, d, e) := by
  rw [unpack16_toNat] at h
  rw [pack16_eq_iff, unpack16_toNat, BitVec.toNat_ofNat, Nat.mod_eq_of_lt (Nat.lt_succ_of_le h)]
  omega

end Legal

section Presented
variable {s : State} {c d e : Digit}

theorem exec_unpack16_of_legal (hc : c.toNat ≤ 44) (hd : d.toNat ≤ 44) (he : e.toNat ≤ 44) :
    exec (.unpack16 c d e) s = .next (s.setOut (.tripletValue (unpack16 c d e))) :=
  if_pos (by simp only [Digit.legal, Bool.and_eq_true, decide_eq_true_eq]; omega)

theorem exec_unpack16_of_reserved (h : 45 ≤ c.toNat ∨ 45 ≤ d.toNat ∨ 45 ≤ e.toNat) :
    exec (.unpack16 c d e) s = .next (s.presentFree fun v => .tripletValue (BitVec.ofNat 17 v)) :=
  if_neg (by simp only [Digit.legal, Bool.and_eq_true, decide_eq_true_eq]; omega)

theorem exec_unpack8_of_legal (hc : c.toNat ≤ 44) (hd : d.toNat ≤ 44) :
    exec (.unpack8 c d) s = .next (s.setOut (.tailValue (unpack8 c d))) :=
  if_pos (by simp only [Digit.legal, Bool.and_eq_true, decide_eq_true_eq]; omega)

theorem exec_unpack8_of_reserved (h : 45 ≤ c.toNat ∨ 45 ≤ d.toNat) :
    exec (.unpack8 c d) s = .next (s.presentFree fun v => .tailValue (BitVec.ofNat 11 v)) :=
  if_neg (by simp only [Digit.legal, Bool.and_eq_true, decide_eq_true_eq]; omega)

end Presented

/-- Settles O10: the sum is the concatenation because the low byte does not reach the high one. -/
theorem mergeIsBigEndianPair : Obligations.MergeIsBigEndianPair := by
  intro a b s
  refine ⟨merge16 a b, rfl, merge16_toNat a b, ?_⟩
  rw [← BitVec.toNat_inj, merge16_toNat, BitVec.toNat_append, ← Nat.shiftLeft_add_eq_or_of_lt b.isLt,
    Nat.shiftLeft_eq]

/-- Settles O11: the quotient and the remainder by 256 are the two bit fields, and put together again give the value. -/
theorem splitIsInverseOfMerge : Obligations.SplitIsInverseOfMerge := by
  refine ⟨fun n s => ?_, split16_merge16⟩
  obtain ⟨ha, hb⟩ := split16_bytes n
  refine ⟨(split16 n).1, (split16 n).2, rfl, ha, hb, ?_, ?_, merge16_split16 n⟩
  · rw [← BitVec.toNat_inj, ha, BitVec.extractLsb'_toNat, Nat.shiftRight_eq_div_pow]
    omega
  · rw [← BitVec.toNat_inj, hb, BitVec.extractLsb'_toNat, Nat.shiftRight_zero]

/-- Settles O12, by `pack16_eq_iff`. -/
theorem packSixteenGivesMixedRadixDigits : Obligations.PackSixteenGivesMixedRadixDigits :=
  fun n _ => ⟨(pack16 n).1, (pack16 n).2.1, (pack16 n).2.2, rfl, pack16_digits n⟩

/-- Settles O13: the bounds of the remainders and of the quotients by 45 and 2025 of a value below 65536. -/
theorem packSixteenDigitsInRange : Obligations.PackSixteenDigitsInRange := by
  intro n
  obtain ⟨hc, hd, he⟩ := pack16_digits n
  omega

/-- Settles O14: below 256 the quotient by 45 is the second digit, and that by 2025 is 0. -/
theorem packEightGivesTwoDigits : Obligations.PackEightGivesTwoDigits := by
  intro n s
  obtain ⟨hc, hd⟩ := pack8_digits n
  refine ⟨(pack8 n).1, (pack8 n).2, rfl, hc, hd, by omega, by omega, ?_⟩
  have hzero : (0 : Digit).toNat = 0 := rfl
  rw [pack16_eq_iff, hc, hd, hzero, BitVec.toNat_ofNat]
  omega

/-- Settles O15: the value of three legal digits, whatever they are, and of those that `pack16` gives. -/
theorem unpackSixteenGivesTripletValue : Obligations.UnpackSixteenGivesTripletValue := by
  refine ⟨fun c d e s hc hd he => ?_, unpack16_pack16_toNat⟩
  refine ⟨unpack16 c d e, exec_unpack16_of_legal hc hd he, unpack16_toNat c d e, ?_⟩
  rw [unpack16_toNat]
  omega

/-- Settles O16: the value of two legal digits, whatever they are, and of those that `pack8` gives. -/
theorem unpackEightGivesTailValue : Obligations.UnpackEightGivesTailValue := by
  refine ⟨fun c d s hc hd => ?_, unpack8_pack8_toNat⟩
  refine ⟨unpack8 c d, exec_unpack8_of_legal hc hd, unpack8_toNat c hd, ?_⟩
  rw [unpack8_toNat c hd]
  omega

/-- Settles O17: a reserved digit fails the test for legal ones, and a free value is presented. -/
theorem unpackOutsideDomainCompletes : Obligations.UnpackOutsideDomainCompletes :=
  ⟨fun _ _ _ _ h => ⟨_, exec_unpack16_of_reserved h⟩, fun _ _ _ h => ⟨_, exec_unpack8_of_reserved h⟩⟩

/-- Settles O18, law by law. -/
theorem packingInverseLaws : Obligations.PackingInverseLaws :=
  ⟨split16_merge16, merge16_split16, unpack16_pack16_toNat, unpack8_pack8_toNat,
    fun _ _ _ hc hd _ => pack16_unpack16 hc hd, fun _ _ => pack8_unpack8,
    fun _ _ _ _ _ _ hc hd _ hc' hd' _ => unpack16_injOn hc hd hc' hd'⟩

end Sys2Proof.Machine
end

section
/-! SUPPORT. Turns in a row of one agent, and how far a call of an engine has come: what holds of every call that
takes no fault, of either engine. -/

namespace Sys2Proof.Machine

theorem runSteps_add {m n : Nat} {s t : State} (h : runSteps m s = .next t) : runSteps (m + n) s = runSteps n t := by
  induction m generalizing s with
  | zero => cases h; rw [Nat.zero_add]
  | succ m ih =>
    rw [Nat.succ_add]
    simp only [runSteps] at h ⊢
    split at h
    · exact ih h
    · cases h
    · cases h

/-- Where `n` turns of agent `a` come next, they lead from every state of which `I` holds to one of which `J` holds. -/
def LeadsTo (a : Agent) (n : Nat) (I J : State → Prop) : Prop :=
  ∀ (s : State) (r : List Agent), I s → s.turns = List.replicate n a ++ r →
    ∃ t, runSteps n s = .next t ∧ t.turns = r ∧ J t

section Turns
variable {a : Agent} {I J K : State → Prop}

theorem LeadsTo.refl : LeadsTo a 0 I I := fun s _ hI ht => ⟨s, rfl, ht, hI⟩

theorem LeadsTo.of_step (h : ∀ s r, I s → s.turns = a :: r → ∃ t, step s = .next t ∧ t.turns = r ∧ J t) :
    LeadsTo a 1 I J := by
  intro s r hI ht
  obtain ⟨t, hstep, htr, hJ⟩ := h s r hI ht
  exact ⟨t, by simp only [runSteps, hstep], htr, hJ⟩

theorem LeadsTo.trans {m n : Nat} (h₁ : LeadsTo a m I J) (h₂ : LeadsTo a n J K) : LeadsTo a (m + n) I K := by
  intro s r hI ht
  rw [List.replicate_add, List.append_assoc] at ht
  obtain ⟨t, hst, htt, hJ⟩ := h₁ s _ hI ht
  obtain ⟨u, htu, hu, hK⟩ := h₂ t r hJ htt
  exact ⟨u, (runSteps_add hst).trans htu, hu, hK⟩

theorem LeadsTo.iterate {I : Nat → State → Prop} {n : Nat} (h : ∀ j, j < n → LeadsTo a 1 (I j) (I (j + 1))) :
    LeadsTo a n (I 0) (I n) := by
  induction n with
  | zero => exact .refl
  | succ n ih => exact (ih fun j hj => h j (hj.trans n.lt_succ_self)).trans (h n n.lt_succ_self)

end Turns

theorem Engine.writeDsts_eq (ws : List Host.Cell) (g : Engine) :
    g.writeDsts ws = { g with dst := (g.writeDsts ws).dst } := by
  induction ws generalizing g with
  | nil => rfl
  | cons w ws ih => exact ih (g.writeDst w.1 w.2)

/-- Of several writes at rising positions each is read back. -/
theorem Engine.read_writeDsts_mem {ws : List Host.Cell} (hws : Memory.wf ws) {w : Host.Cell} (hw : w ∈ ws)
    (g : Engine) : (g.writeDsts ws).dst.read w.1 = some w.2 := by
  induction ws generalizing g with
  | nil => cases hw
  | cons x ws ih =>
    obtain ⟨hx, hws⟩ := List.pairwise_cons.1 hws
    obtain rfl | hw := List.mem_cons.1 hw
    · exact (Engine.read_writeDsts_other fun y hy => (hx y hy).ne').trans (Memory.read_write_same w.1 w.2 g.dst)
    · exact ih hws hw _

section Written
variable {u v : State} {e : EngineId} {ws : List Host.Cell} (hdst : (v.engine e).dst = ((u.engine e).writeDsts ws).dst)
include hdst

theorem State.readDst_written (hws : Memory.wf ws) {w : Host.Cell} (hw : w ∈ ws) : v.readDst e w.1 = w.2 := by
  rw [State.readDst, hdst, Engine.read_writeDsts_mem hws hw, Option.getD_some]

theorem State.readDst_not_written (hepoch : v.epoch = u.epoch) {a : Nat} (ha : a ∉ ws.map Prod.fst) :
    v.readDst e a = u.readDst e a := by
  have hread : (v.engine e).dst.read a = (u.engine e).dst.read a := by
    rw [hdst]
    exact Engine.read_writeDsts_other fun w hw hwa => ha (hwa ▸ List.mem_map_of_mem hw)
  rw [State.readDst, State.readDst, State.unlisted, State.unlisted, hread, hepoch]

end Written

/-- The call that engine `e` begins in `s` has come to `t`, in STATUS `st`: it has consumed `n` elements and written
their output, of which `P` says what stands at each position, and it has changed nothing else. -/
structure CallAt (e : EngineId) (P : Nat → Byte → Prop) (s : State) (st : Status) (n : Nat) (t : State) : Prop where
  engine : t.engine e = { s.engine e with status := st, pos := n, dst := (t.engine e).dst }
  others : t = { s.setEngine e (t.engine e) with turns := t.turns, draws := t.draws }
  draws : e = .encoder → t.draws = s.draws
  written : ∀ a, a < outputLength e n → P a (t.readDst e a)
  beyond : ∀ a, outputLength e n ≤ a → t.readDst e a = s.readDst e a

/-- A call begins with nothing consumed and nothing written. -/
theorem CallAt.start {e : EngineId} {P : Nat → Byte → Prop} {s : State} (hb : (s.engine e).status = .busy)
    (hp : (s.engine e).pos = 0) : CallAt e P s .busy 0 s where
  engine := by rw [← hb, ← hp]
  others := by rw [State.setEngine_self]
  draws _ := rfl
  written a ha := by cases e <;> exact absurd ha a.not_lt_zero
  beyond _ _ := rfl

section Calls
variable {e : EngineId} {P : Nat → Byte → Prop} {s u v : State} {st : Status} {n : Nat}

theorem CallAt.status (h : CallAt e P s st n u) : (u.engine e).status = st := by rw [h.engine]

theorem CallAt.pos (h : CallAt e P s st n u) : (u.engine e).pos = n := by rw [h.engine]

theorem CallAt.len (h : CallAt e P s st n u) : (u.engine e).len = (s.engine e).len := by rw [h.engine]

theorem CallAt.params (h : CallAt e P s st n u) : u.params = s.params := by
  rw [h.others]
  exact State.setEngine_params e _

theorem CallAt.epoch (h : CallAt e P s st n u) : u.epoch = s.epoch := by
  rw [h.others]
  exact State.setEngine_epoch e s _

/-- A call reads the input it was started on (R54). -/
theorem CallAt.readSrc (h : CallAt e P s st n u) (i : Nat) : u.readSrc e i = s.readSrc e i := by
  have hsrc : (u.engine e).src = (s.engine e).src := by rw [h.engine]
  simp only [State.readSrc, State.unlisted, hsrc, h.epoch]

/-- A turn in which the engine writes the next elements of its output. -/
theorem CallAt.step {r : List Agent} {st' : Status} {m k : Nat} {ws : List Host.Cell} (h : CallAt e P s st n u)
    (ht : u.turns = .engine e :: r) (hstep : step u = .next v)
    (hv : v.engine e = { (u.engine e).writeDsts ws with status := st', pos := m })
    (hpos : ws.map Prod.fst = List.range' (outputLength e n) k) (hout : outputLength e m = outputLength e n + k)
    (hP : ∀ w ∈ ws, P w.1 w.2) : v.turns = r ∧ CallAt e P s st' m v := by
  obtain ⟨hframe, hdraws, -⟩ := step_engine_own ht hstep
  have hturns : v.turns = r := by rw [hframe]
  have hepoch : v.epoch = u.epoch := by rw [hframe]; exact State.setEngine_epoch e u _
  have hdst : (v.engine e).dst = ((u.engine e).writeDsts ws).dst := by rw [hv]
  have hwf : Memory.wf ws := List.pairwise_map.1 (hpos ▸ List.pairwise_lt_range')
  have hmem : ∀ a, a ∈ ws.map Prod.fst ↔ outputLength e n ≤ a ∧ a < outputLength e n + k := fun a => by
    rw [hpos, List.mem_range'_1]
  refine ⟨hturns, ?_, ?_, fun he => (hdraws he).trans (h.draws he), fun a ha => ?_, fun a ha => ?_⟩
  · rw [hv, Engine.writeDsts_eq, h.engine]
  · rw [hturns]
    refine hframe.trans ?_
    rw [h.others]
    cases e <;> rfl
  · by_cases hnw : a ∈ ws.map Prod.fst
    · obtain ⟨w, hw, rfl⟩ := List.mem_map.1 hnw
      exact State.readDst_written hdst hwf hw ▸ hP w hw
    · rw [State.readDst_not_written hdst hepoch hnw]
      rw [hmem] at hnw
      exact h.written a (by omega)
  · have hnw : a ∉ ws.map Prod.fst := by rw [hmem]; omega
    rw [State.readDst_not_written hdst hepoch hnw, h.beyond a (by omega)]

end Calls

end Sys2Proof.Machine
end

section
/-! SUPPORT. A whole ENCODE: every turn of it, and the string it writes (R100 to R105, R67, R170). -/

namespace Sys2Proof.Machine

/-- Digit `k` of group `i` of the encoder's input: of its pair of bytes, or of the single byte left (R102, R103). -/
def State.groupDigit (s : State) (i k : Nat) : Digit :=
  if 2 * i + 2 ≤ s.enc.len then
    let (c, d, e) := pack16 (merge16 (s.readSrc .encoder (2 * i)) (s.readSrc .encoder (2 * i + 1)))
    if k = 0 then c else if k = 1 then d else e
  else
    let (c, d) := pack8 (s.readSrc .encoder (2 * i))
    if k = 0 then c else d

/-- `v` is the character of the digit that belongs at position `a` of the encoder's string (R67). -/
def State.EncodesAs (s : State) (a : Nat) (v : Byte) : Prop := encLut (s.groupDigit (a / 3) (a % 3)) = some v

theorem State.encodesAs_iff {s : State} {i k : Nat} (hk : k < 3) {v : Byte} :
    s.EncodesAs (3 * i + k) v ↔ encLut (s.groupDigit i k) = some v := by
  have hgroup : (3 * i + k) / 3 = i := by omega
  have hplace : (3 * i + k) % 3 = k := by omega
  rw [State.EncodesAs, hgroup, hplace]

/-- The `m` characters of group `i`, each with its position (R67). -/
def State.groupCells (s : State) (i m : Nat) : List Host.Cell :=
  (List.range m).map fun k => (3 * i + k, s.charOf (s.groupDigit i k))

theorem State.groupDigit_pair {s : State} {i : Nat} (h : 2 * i + 2 ≤ s.enc.len) {c d e : Digit}
    (hp : pack16 (merge16 (s.readSrc .encoder (2 * i)) (s.readSrc .encoder (2 * i + 1))) = (c, d, e)) :
    s.groupDigit i = fun k => if k = 0 then c else if k = 1 then d else e := by
  funext k
  simp only [State.groupDigit, if_pos h, hp]

theorem State.groupDigit_tail {s : State} {i : Nat} (h : s.enc.len < 2 * i + 2) {c d : Digit}
    (hp : pack8 (s.readSrc .encoder (2 * i)) = (c, d)) : s.groupDigit i = fun k => if k = 0 then c else d := by
  funext k
  simp only [State.groupDigit, if_neg h.not_ge, hp]

/-- The encoder gives `ENC_LUT` legal digits only (R93, R94, R107). -/
theorem State.groupDigit_legal (s : State) (i k : Nat) : (s.groupDigit i k).toNat < 45 := by
  by_cases h : 2 * i + 2 ≤ s.enc.len
  · rcases hp : pack16 (merge16 (s.readSrc .encoder (2 * i)) (s.readSrc .encoder (2 * i + 1))) with ⟨c, d, e⟩
    obtain ⟨hc, hd, he⟩ := (pack16_eq_iff _ _ _ _).1 hp
    rw [State.groupDigit_pair h hp]
    dsimp only
    split_ifs <;> omega
  · rcases hp : pack8 (s.readSrc .encoder (2 * i)) with ⟨c, d⟩
    obtain ⟨hc, hd⟩ := (pack8_eq_iff _ _ _).1 hp
    rw [State.groupDigit_tail (not_le.1 h) hp]
    dsimp only
    split_ifs <;> omega

theorem State.groupDigit_congr {s u : State} (hlen : u.enc.len = s.enc.len)
    (hsrc : ∀ i, u.readSrc .encoder i = s.readSrc .encoder i) (i k : Nat) : u.groupDigit i k = s.groupDigit i k := by
  simp only [State.groupDigit, hlen, hsrc]

theorem State.groupCells_positions (s : State) (i m : Nat) :
    (s.groupCells i m).map Prod.fst = List.range' (3 * i) m := by
  rw [State.groupCells, List.map_map, List.range'_eq_map_range]
  rfl

/-- The characters of a group are those that belong at their positions. -/
theorem State.groupCells_encode {s : State} {i m : Nat} (hm : m ≤ 3) :
    ∀ w ∈ s.groupCells i m, s.EncodesAs w.1 w.2 := by
  intro w hw
  obtain ⟨k, hk, rfl⟩ := List.mem_map.1 hw
  exact (State.encodesAs_iff ((List.mem_range.1 hk).trans_le hm)).2 (s.charOf_legal (s.groupDigit_legal i k))

section EncoderTurns
variable {s : State} {r : List Agent} {j : Nat} (ht : s.turns = .engine .encoder :: r) (hb : s.enc.status = .busy)
include ht hb

/-- The turn that encodes pair `j`. -/
theorem step_encPair (hj : s.enc.pos = 2 * j) (hl : 2 * j + 2 ≤ s.enc.len) : ∃ t, step s = .next t ∧
    t.enc = { s.enc.writeDsts (s.groupCells j 3) with status := .busy, pos := s.enc.pos + 2 } := by
  obtain ⟨-, -, htwo, hmore, -⟩ := encoderTurnRunsSelectedOperation s r ht
  obtain ⟨x, hx⟩ : ∃ x, step s = exec (.encPair x) { s with turns := r } := by
    obtain h | h : s.enc.len - s.enc.pos = 2 ∨ 3 ≤ s.enc.len - s.enc.pos := by omega
    · exact ⟨0, htwo hb h⟩
    · exact ⟨1, hmore hb h⟩
  have hleft : 2 ≤ s.enc.remaining := by unfold Engine.remaining; omega
  rcases hp : pack16 (merge16 (s.readSrc .encoder (2 * j)) (s.readSrc .encoder (2 * j + 1))) with ⟨c, d, e⟩
  have hexec := execEncPair_eq (s := { s with turns := r }) x hb hleft (hj ▸ hp)
  have hgroup : 2 * j / 2 = j := by omega
  rw [hj, hgroup] at hexec
  refine ⟨_, hx.trans hexec, ?_⟩
  rw [State.groupCells, State.groupDigit_pair hl hp, ← hb]
  rfl

/-- The turn that encodes the odd last byte. -/
theorem step_encTail (hj : s.enc.pos = 2 * j) (hl : 2 * j + 1 = s.enc.len) : ∃ t, step s = .next t ∧
    t.enc = { s.enc.writeDsts (s.groupCells j 2) with status := .busy, pos := s.enc.pos + 1 } := by
  obtain ⟨-, htail, -⟩ := encoderTurnRunsSelectedOperation s r ht
  have hleft : s.enc.remaining = 1 := by unfold Engine.remaining; omega
  rcases hp : pack8 (s.readSrc .encoder (2 * j)) with ⟨c, d⟩
  have hexec := execEncTail_eq (s := { s with turns := r }) hb hleft (hj ▸ hp)
  have hgroup : 2 * j / 2 = j := by omega
  rw [hj, hgroup] at hexec
  refine ⟨_, (htail hb hleft).trans hexec, ?_⟩
  rw [State.groupCells, State.groupDigit_tail (by omega) hp, ← hb]
  rfl

/-- The turn that ends the call. -/
theorem step_encDone (hp : s.enc.pos = s.enc.len) : ∃ t, step s = .next t ∧
    t.enc = { s.enc with status := .done, pos := s.enc.len } := by
  obtain ⟨hdone, -⟩ := encoderTurnRunsSelectedOperation s r ht
  have hleft : s.enc.remaining = 0 := by unfold Engine.remaining; omega
  refine ⟨_, (hdone hb hleft).trans (execEncDone_eq (s := { s with turns := r }) hb hleft), ?_⟩
  rw [← hp]
  rfl

end EncoderTurns

/-- An ENCODE that begins in `s`, in STATUS `st` with `n` bytes consumed. -/
abbrev EncodeAt (s : State) : Status → Nat → State → Prop := CallAt .encoder s.EncodesAs s

section Encode
variable {s u : State} {st : Status} {n : Nat}

/-- The characters of a group that a call writes are those its input asks for. -/
theorem CallAt.groupCells_encode (h : EncodeAt s st n u) {i m : Nat} (hm : m ≤ 3) :
    ∀ w ∈ u.groupCells i m, s.EncodesAs w.1 w.2 := fun w hw => by
  rw [State.EncodesAs, ← State.groupDigit_congr h.len h.readSrc]
  exact State.groupCells_encode hm w hw

theorem encode_pair {j : Nat} (hj : 2 * j + 2 ≤ s.enc.len) :
    LeadsTo (.engine .encoder) 1 (EncodeAt s .busy (2 * j)) (EncodeAt s .busy (2 * (j + 1))) := by
  refine .of_step fun u r h ht => ?_
  have hlen : u.enc.len = s.enc.len := h.len
  obtain ⟨t, hstep, henc⟩ := step_encPair ht h.status h.pos (hlen ▸ hj)
  rw [show u.enc.pos = 2 * j from h.pos] at henc
  refine ⟨t, hstep, h.step ht hstep henc (k := 3) ?_ ?_ (h.groupCells_encode (le_refl 3))⟩
  · rw [State.groupCells_positions, outputLength_encoder]
    congr 1
    omega
  · simp only [outputLength_encoder]
    omega

theorem encode_tail {j : Nat} (hj : 2 * j + 1 = s.enc.len) :
    LeadsTo (.engine .encoder) 1 (EncodeAt s .busy (2 * j)) (EncodeAt s .busy s.enc.len) := by
  refine .of_step fun u r h ht => ?_
  have hlen : u.enc.len = s.enc.len := h.len
  obtain ⟨t, hstep, henc⟩ := step_encTail ht h.status h.pos (hj.trans hlen.symm)
  rw [show u.enc.pos = 2 * j from h.pos, hj] at henc
  refine ⟨t, hstep, h.step ht hstep henc (k := 2) ?_ ?_ (h.groupCells_encode (by decide))⟩
  · rw [State.groupCells_positions, outputLength_encoder]
    congr 1
    omega
  · simp only [outputLength_encoder]
    omega

theorem encode_done : LeadsTo (.engine .encoder) 1 (EncodeAt s .busy s.enc.len) (EncodeAt s .done s.enc.len) := by
  refine .of_step fun u r h ht => ?_
  have hlen : u.enc.len = s.enc.len := h.len
  obtain ⟨t, hstep, henc⟩ := step_encDone ht h.status (h.pos.trans hlen.symm)
  rw [hlen] at henc
  exact ⟨t, hstep, h.step ht hstep henc (ws := []) (k := 0) rfl rfl nofun⟩

/-- The pairs, then the odd byte if there is one, then the end: the turns of a whole ENCODE (R170). -/
theorem encode_call (s : State) : LeadsTo (.engine .encoder) (s.enc.len / 2 + s.enc.len % 2 + 1)
    (EncodeAt s .busy 0) (EncodeAt s .done s.enc.len) := by
  have hpairs : LeadsTo (.engine .encoder) (s.enc.len / 2) (EncodeAt s .busy 0)
      (EncodeAt s .busy (2 * (s.enc.len / 2))) :=
    .iterate (I := fun j => EncodeAt s .busy (2 * j)) fun j hj => encode_pair (by omega)
  have htail : LeadsTo (.engine .encoder) (s.enc.len % 2) (EncodeAt s .busy (2 * (s.enc.len / 2)))
      (EncodeAt s .busy s.enc.len) := by
    obtain h | h := Nat.mod_two_eq_zero_or_one s.enc.len
    · have hall : 2 * (s.enc.len / 2) = s.enc.len := by omega
      rw [h, hall]
      exact .refl
    · rw [h]
      exact encode_tail (by omega)
  exact (hpairs.trans htail).trans encode_done

end Encode

/-- Settles O53: `encode_call` gives the turns and the frame, and says of each position which
digit's character is there. -/
theorem encodeCallComputesString : Obligations.EncodeCallComputesString := by
  intro s r hb hp ht
  obtain ⟨t, hrun, hturns, h⟩ := encode_call s s r (CallAt.start hb hp) ht
  have hchar : ∀ i k, k < 3 → 3 * i + k < outputLength .encoder s.enc.len →
      encLut (s.groupDigit i k) = some (t.readDst .encoder (3 * i + k)) := fun i k hk ha =>
    (State.encodesAs_iff hk).1 (h.written (3 * i + k) ha)
  rw [outputLength_encoder] at hchar
  refine ⟨t, hrun, ?_, fun i hi => ?_, fun hodd => ?_, h.beyond⟩
  · refine h.others.trans ?_
    rw [h.engine, hturns, h.draws rfl]
    rfl
  · have hdigits := pack16_digits (merge16 (s.readSrc .encoder (2 * i)) (s.readSrc .encoder (2 * i + 1)))
    rw [merge16_toNat] at hdigits
    have hplaces := hchar i
    rw [State.groupDigit_pair (by omega) rfl] at hplaces
    exact ⟨_, _, _, hdigits, hplaces 0 (by decide) (by omega), hplaces 1 (by decide) (by omega),
      hplaces 2 (by decide) (by omega)⟩
  · have hlast : s.enc.len - 1 = 2 * (s.enc.len / 2) := by omega
    obtain ⟨hc, hd⟩ := pack8_digits (s.readSrc .encoder (2 * (s.enc.len / 2)))
    have hplaces := hchar (s.enc.len / 2)
    rw [State.groupDigit_tail (by omega) rfl] at hplaces
    rw [hlast]
    exact ⟨_, _, hc, hd, hplaces 0 (by decide) (by omega), hplaces 1 (by decide) (by omega)⟩

end Sys2Proof.Machine
end

section
/-! SUPPORT. A whole DECODE of valid input: every turn of it, and the bytes it writes (R110 to R115, R67, R170). -/

namespace Sys2Proof.Machine

section Groups
variable {s : State} {p : Nat} {c d e : Digit}

theorem State.tailDigits_of_hits (hc : decLut (s.readSrc .decoder p) = some c)
    (hd : decLut (s.readSrc .decoder (p + 1)) = some d) : s.tailDigits p = .ok (c, d) := by
  simp only [State.tailDigits, State.digitAt, hc, hd]

theorem State.tripletDigits_of_hits (hc : decLut (s.readSrc .decoder p) = some c)
    (hd : decLut (s.readSrc .decoder (p + 1)) = some d) (he : decLut (s.readSrc .decoder (p + 2)) = some e) :
    s.tripletDigits p = .ok (c, d, e) := by
  simp only [State.tripletDigits, State.tailDigits_of_hits hc hd, State.digitAt, he]

theorem State.tailDigits_of_valid (hc : s.validAt p = true) (hd : s.validAt (p + 1) = true) :
    ∃ c d, s.tailDigits p = .ok (c, d) := by
  obtain ⟨c, hc⟩ := Option.isSome_iff_exists.1 hc
  obtain ⟨d, hd⟩ := Option.isSome_iff_exists.1 hd
  exact ⟨c, d, State.tailDigits_of_hits hc hd⟩

theorem State.tripletDigits_of_valid (hc : s.validAt p = true) (hd : s.validAt (p + 1) = true)
    (he : s.validAt (p + 2) = true) : ∃ c d e, s.tripletDigits p = .ok (c, d, e) := by
  obtain ⟨c, hc⟩ := Option.isSome_iff_exists.1 hc
  obtain ⟨d, hd⟩ := Option.isSome_iff_exists.1 hd
  obtain ⟨e, he⟩ := Option.isSome_iff_exists.1 he
  exact ⟨c, d, e, State.tripletDigits_of_hits hc hd he⟩

theorem State.tailDigits_congr {u : State} (h : ∀ i, u.readSrc .decoder i = s.readSrc .decoder i) (p : Nat) :
    u.tailDigits p = s.tailDigits p := by
  simp only [State.tailDigits, State.digitAt, h]

theorem State.tripletDigits_congr {u : State} (h : ∀ i, u.readSrc .decoder i = s.readSrc .decoder i) (p : Nat) :
    u.tripletDigits p = s.tripletDigits p := by
  simp only [State.tripletDigits, State.tailDigits_congr h, State.digitAt, h]

/-- Bytes are left open only under the alternative policy, and only of an overflow group (R11). -/
theorem State.opensBytes_eq_false {b : Bool} (h : b = false ∨ s.params.overflow = .wrap) :
    s.opensBytes b = false := by
  obtain h | h := h <;> simp [State.opensBytes, h]

/-- The two bytes of a triplet that fits 16 bits, or wraps (R111). -/
theorem State.tripletBytes_toNat {n : BitVec 17} (h : n.toNat ≤ 65535 ∨ s.params.overflow = .wrap) :
    (s.tripletBytes n).1.toNat = n.toNat / 256 % 256 ∧ (s.tripletBytes n).2.toNat = n.toNat % 256 := by
  have hclosed : s.opensBytes (decide (65536 ≤ n.toNat)) = false :=
    State.opensBytes_eq_false (h.imp_left fun h => decide_eq_false (by omega))
  simp only [State.tripletBytes, hclosed, Bool.false_eq_true, if_false, BitVec.toNat_ofNat]
  omega

/-- The byte of a tail that fits 8 bits, or wraps (R112). -/
theorem State.tailByte_toNat {n : BitVec 11} (h : n.toNat ≤ 255 ∨ s.params.overflow = .wrap) :
    (s.tailByte n).toNat = n.toNat % 256 := by
  have hclosed : s.opensBytes (decide (256 ≤ n.toNat)) = false :=
    State.opensBytes_eq_false (h.imp_left fun h => decide_eq_false (by omega))
  simp only [State.tailByte, hclosed, Bool.false_eq_true, if_false, BitVec.toNat_ofNat]
  omega

end Groups

/-- `v` is a byte that may stand at position `a` of the decoder's output: that of the group to which the position
belongs, and any where the policy leaves it open (R67, R111, R112). -/
structure State.DecodesAs (s : State) (a : Nat) (v : Byte) : Prop where
  triplet : ∀ i c d e, 3 * i + 3 ≤ s.dec.len → s.tripletDigits (3 * i) = .ok (c, d, e) →
    (unpack16 c d e).toNat ≤ 65535 ∨ s.params.overflow = .wrap →
      (a = 2 * i → v.toNat = (unpack16 c d e).toNat / 256 % 256) ∧
      (a = 2 * i + 1 → v.toNat = (unpack16 c d e).toNat % 256)
  tail : ∀ i c d, 3 * i + 2 = s.dec.len → s.tailDigits (3 * i) = .ok (c, d) →
    (unpack8 c d).toNat ≤ 255 ∨ s.params.overflow = .wrap → a = 2 * i → v.toNat = (unpack8 c d).toNat % 256

section DecoderTurns
variable {s : State} {r : List Agent} {j : Nat} (ht : s.turns = .engine .decoder :: r) (hb : s.dec.status = .busy)
include ht hb

/-- The turn that decodes triplet `j`. -/
theorem step_decTriplet (hj : s.dec.pos = 3 * j) (hl : 3 * j + 3 ≤ s.dec.len) {c d e : Digit}
    (hp : s.tripletDigits (3 * j) = .ok (c, d, e)) : ∃ t, step s = .next t ∧
    t.dec = { s.dec.writeDsts [(2 * j, (s.tripletBytes (unpack16 c d e)).1),
                (2 * j + 1, (s.tripletBytes (unpack16 c d e)).2)] with status := .busy, pos := s.dec.pos + 3 } := by
  obtain ⟨-, -, -, htriplet, -⟩ := decoderTurnRunsSelectedOperation s r ht
  have hleft : 3 ≤ s.dec.remaining := by unfold Engine.remaining; omega
  have hexec := execDecTriplet_ok (s := { s with turns := r }) hb hleft (hj ▸ hp)
  have hgroup : 3 * j / 3 = j := by omega
  rw [hj, hgroup] at hexec
  refine ⟨_, (htriplet hb hleft).trans hexec, ?_⟩
  rw [← hb]
  rfl

/-- The turn that decodes the last two characters. -/
theorem step_decTail (hj : s.dec.pos = 3 * j) (hl : 3 * j + 2 = s.dec.len) {c d : Digit}
    (hp : s.tailDigits (3 * j) = .ok (c, d)) : ∃ t, step s = .next t ∧
    t.dec = { s.dec.writeDsts [(2 * j, s.tailByte (unpack8 c d))] with status := .busy, pos := s.dec.pos + 2 } := by
  obtain ⟨-, -, htail, -⟩ := decoderTurnRunsSelectedOperation s r ht
  have hleft : s.dec.remaining = 2 := by unfold Engine.remaining; omega
  have hexec := execDecTail_ok (s := { s with turns := r }) hb hleft (hj ▸ hp)
  have hgroup : 3 * j / 3 = j := by omega
  rw [hj, hgroup] at hexec
  refine ⟨_, (htail hb hleft).trans hexec, ?_⟩
  rw [← hb]
  rfl

/-- The turn that ignores a dangling character. -/
theorem step_decDangle (hl : s.dec.pos + 1 = s.dec.len) (hp : s.params.dangle = .ignore) : ∃ t, step s = .next t ∧
    t.dec = { s.dec with status := .busy, pos := s.dec.pos + 1 } := by
  obtain ⟨-, hdangle, -⟩ := decoderTurnRunsSelectedOperation s r ht
  have hleft : s.dec.remaining = 1 := by unfold Engine.remaining; omega
  refine ⟨_, (hdangle hb hleft).trans (execDecDangle_ignore (s := { s with turns := r }) hb hleft hp), ?_⟩
  rw [← hb]
  rfl

/-- The turn that ends the call. -/
theorem step_decDone (hp : s.dec.pos = s.dec.len) : ∃ t, step s = .next t ∧
    t.dec = { s.dec with status := .done, pos := s.dec.len } := by
  obtain ⟨hdone, -⟩ := decoderTurnRunsSelectedOperation s r ht
  have hleft : s.dec.remaining = 0 := by unfold Engine.remaining; omega
  refine ⟨_, (hdone hb hleft).trans (execDecDone_eq (s := { s with turns := r }) hb hleft), ?_⟩
  rw [← hp]
  rfl

end DecoderTurns

/-- A DECODE that begins in `s`, in STATUS `st` with `n` characters consumed and no fault taken. -/
abbrev DecodeAt (s : State) : Status → Nat → State → Prop := CallAt .decoder s.DecodesAs s

section Decode
variable {s : State}

/-- The two bytes that a call writes for a triplet are those its input asks for. -/
theorem CallAt.tripletBytes_decode {st : Status} {n j : Nat} {u : State} (h : DecodeAt s st n u) {c d e : Digit}
    (hj : 3 * j + 3 ≤ s.dec.len) (hp : s.tripletDigits (3 * j) = .ok (c, d, e)) :
    s.DecodesAs (2 * j) (u.tripletBytes (unpack16 c d e)).1 ∧
    s.DecodesAs (2 * j + 1) (u.tripletBytes (unpack16 c d e)).2 := by
  have hbytes : ∀ i c' d' e', i = j → s.tripletDigits (3 * i) = .ok (c', d', e') →
      (unpack16 c' d' e').toNat ≤ 65535 ∨ s.params.overflow = .wrap →
      (u.tripletBytes (unpack16 c d e)).1.toNat = (unpack16 c' d' e').toNat / 256 % 256 ∧
      (u.tripletBytes (unpack16 c d e)).2.toNat = (unpack16 c' d' e').toNat % 256 := fun i c' d' e' hi hp' hn => by
    subst hi
    cases hp.symm.trans hp'
    exact State.tripletBytes_toNat (h.params.symm ▸ hn)
  constructor
  · exact ⟨fun i c' d' e' hi hp' hn => ⟨fun ha => (hbytes i c' d' e' (by omega) hp' hn).1, fun ha => by omega⟩,
      fun i c' d' hi _ _ ha => by omega⟩
  · exact ⟨fun i c' d' e' hi hp' hn => ⟨fun ha => by omega, fun ha => (hbytes i c' d' e' (by omega) hp' hn).2⟩,
      fun i c' d' hi _ _ ha => by omega⟩

/-- The byte that a call writes for a tail is the one its input asks for. -/
theorem CallAt.tailByte_decode {st : Status} {n j : Nat} {u : State} (h : DecodeAt s st n u) {c d : Digit}
    (hj : 3 * j + 2 = s.dec.len) (hp : s.tailDigits (3 * j) = .ok (c, d)) :
    s.DecodesAs (2 * j) (u.tailByte (unpack8 c d)) := by
  refine ⟨fun i c' d' e' hi _ _ => ⟨fun ha => by omega, fun ha => by omega⟩, fun i c' d' hi hp' hn ha => ?_⟩
  obtain rfl : i = j := by omega
  cases hp.symm.trans hp'
  exact State.tailByte_toNat (h.params.symm ▸ hn)

theorem decode_triplet {j : Nat} (hj : 3 * j + 3 ≤ s.dec.len) (hvalid : ∀ i, i < 3 * j + 3 → s.validAt i = true) :
    LeadsTo (.engine .decoder) 1 (DecodeAt s .busy (3 * j)) (DecodeAt s .busy (3 * (j + 1))) := by
  obtain ⟨c, d, e, hp⟩ := State.tripletDigits_of_valid (p := 3 * j) (hvalid _ (by omega)) (hvalid _ (by omega))
    (hvalid _ (by omega))
  refine .of_step fun u r h ht => ?_
  have hlen : u.dec.len = s.dec.len := h.len
  obtain ⟨t, hstep, hdec⟩ := step_decTriplet ht h.status h.pos (hlen ▸ hj)
    ((State.tripletDigits_congr h.readSrc _).trans hp)
  rw [show u.dec.pos = 3 * j from h.pos] at hdec
  refine ⟨t, hstep, h.step ht hstep hdec (k := 2) ?_ ?_ ?_⟩
  · have hbase : outputLength .decoder (3 * j) = 2 * j := by rw [outputLength_decoder]; omega
    rw [hbase]
    rfl
  · simp only [outputLength_decoder]
    omega
  · obtain ⟨hhigh, hlow⟩ := h.tripletBytes_decode hj hp
    simp only [List.forall_mem_cons]
    exact ⟨hhigh, hlow, nofun⟩

theorem decode_tail {j : Nat} (hj : 3 * j + 2 = s.dec.len) (hvalid : ∀ i, i < s.dec.len → s.validAt i = true) :
    LeadsTo (.engine .decoder) 1 (DecodeAt s .busy (3 * j)) (DecodeAt s .busy s.dec.len) := by
  obtain ⟨c, d, hp⟩ := State.tailDigits_of_valid (p := 3 * j) (hvalid _ (by omega)) (hvalid _ (by omega))
  refine .of_step fun u r h ht => ?_
  have hlen : u.dec.len = s.dec.len := h.len
  obtain ⟨t, hstep, hdec⟩ := step_decTail ht h.status h.pos (hj.trans hlen.symm)
    ((State.tailDigits_congr h.readSrc _).trans hp)
  rw [show u.dec.pos = 3 * j from h.pos, hj] at hdec
  refine ⟨t, hstep, h.step ht hstep hdec (k := 1) ?_ ?_ ?_⟩
  · have hbase : outputLength .decoder (3 * j) = 2 * j := by rw [outputLength_decoder]; omega
    rw [hbase]
    rfl
  · simp only [outputLength_decoder]
    omega
  · rw [List.forall_mem_singleton]
    exact h.tailByte_decode hj hp

theorem decode_dangle {j : Nat} (hj : 3 * j + 1 = s.dec.len) (hignore : s.params.dangle = .ignore) :
    LeadsTo (.engine .decoder) 1 (DecodeAt s .busy (3 * j)) (DecodeAt s .busy s.dec.len) := by
  refine .of_step fun u r h ht => ?_
  have hlen : u.dec.len = s.dec.len := h.len
  have hpos : u.dec.pos = 3 * j := h.pos
  obtain ⟨t, hstep, hdec⟩ := step_decDangle ht h.status (by omega) (h.params ▸ hignore)
  rw [hpos, hj] at hdec
  refine ⟨t, hstep, h.step ht hstep hdec (ws := []) (k := 0) rfl ?_ nofun⟩
  simp only [outputLength_decoder]
  omega

theorem decode_done : LeadsTo (.engine .decoder) 1 (DecodeAt s .busy s.dec.len) (DecodeAt s .done s.dec.len) := by
  refine .of_step fun u r h ht => ?_
  have hlen : u.dec.len = s.dec.len := h.len
  obtain ⟨t, hstep, hdec⟩ := step_decDone ht h.status (h.pos.trans hlen.symm)
  rw [hlen] at hdec
  exact ⟨t, hstep, h.step ht hstep hdec (ws := []) (k := 0) rfl rfl nofun⟩

/-- The first `n` triplets, where all their characters are in the alphabet. -/
theorem decode_triplets {n : Nat} (hn : 3 * n ≤ s.dec.len) (hvalid : ∀ i, i < 3 * n → s.validAt i = true) :
    LeadsTo (.engine .decoder) n (DecodeAt s .busy 0) (DecodeAt s .busy (3 * n)) :=
  .iterate (I := fun j => DecodeAt s .busy (3 * j)) fun _ hj =>
    decode_triplet (by omega) fun i hi => hvalid i (by omega)

/-- The triplets, then the tail or the ignored character if there is one, then the end: the turns of a whole DECODE
(R170). -/
theorem decode_call (hvalid : ∀ i, i < consumedLength s.dec.len → s.validAt i = true)
    (hignore : s.dec.len % 3 = 1 → s.params.dangle = .ignore) :
    LeadsTo (.engine .decoder) (s.dec.len / 3 + (if s.dec.len % 3 = 0 then 0 else 1) + 1)
      (DecodeAt s .busy 0) (DecodeAt s .done s.dec.len) := by
  have htriplets : LeadsTo (.engine .decoder) (s.dec.len / 3) (DecodeAt s .busy 0)
      (DecodeAt s .busy (3 * (s.dec.len / 3))) :=
    decode_triplets (by omega) fun i hi => hvalid i (by unfold consumedLength; split <;> omega)
  have hrest : LeadsTo (.engine .decoder) (if s.dec.len % 3 = 0 then 0 else 1)
      (DecodeAt s .busy (3 * (s.dec.len / 3))) (DecodeAt s .busy s.dec.len) := by
    obtain h | h | h : s.dec.len % 3 = 0 ∨ s.dec.len % 3 = 1 ∨ s.dec.len % 3 = 2 := by omega
    · have hall : 3 * (s.dec.len / 3) = s.dec.len := by omega
      rw [if_pos h, hall]
      exact .refl
    · rw [if_neg (by omega)]
      exact decode_dangle (by omega) (hignore h)
    · rw [consumedLength, if_neg (by omega)] at hvalid
      rw [if_neg (by omega)]
      exact decode_tail (by omega) hvalid
  exact (htriplets.trans hrest).trans decode_done

end Decode

/-- Settles O54: `decode_call` gives the turns and the frame, and says of each position which group's byte is there. -/
theorem decodeCallComputesBytes : Obligations.DecodeCallComputesBytes := by
  intro s r hb hp hvalid hignore ht
  obtain ⟨t, hrun, hturns, h⟩ := decode_call hvalid hignore s r (CallAt.start hb hp) ht
  have hwritten := h.written
  rw [outputLength_decoder] at hwritten
  refine ⟨t, hrun, ?_, fun i c d e hi hc hd he hn => ?_, fun c d htwo hc hd hn => ?_, h.beyond⟩
  · refine h.others.trans ?_
    rw [h.engine, hturns]
    rfl
  · have hp := State.tripletDigits_of_hits hc hd he
    rw [← unpack16_toNat] at hn ⊢
    exact ⟨((hwritten (2 * i) (by omega)).triplet i c d e (by omega) hp hn).1 rfl,
      ((hwritten (2 * i + 1) (by omega)).triplet i c d e (by omega) hp hn).2 rfl⟩
  · have hfirst : s.dec.len - 2 = 3 * (s.dec.len / 3) := by omega
    have hsecond : s.dec.len - 1 = 3 * (s.dec.len / 3) + 1 := by omega
    rw [hfirst] at hc
    rw [hsecond] at hd
    rw [← unpack8_toNat c (Nat.le_of_lt_succ (decLut_legal hd))] at hn ⊢
    exact (hwritten (2 * (s.dec.len / 3)) (by omega)).tail _ c d (by omega) (State.tailDigits_of_hits hc hd) hn rfl

end Sys2Proof.Machine
end

section
/-! SUPPORT. The step operations by themselves: what one of the encoder's writes at any cursor, and when any of them is
refused (R101 to R105, R110). -/

namespace Sys2Proof.Machine

theorem Engine.not_runs {g : Engine} {left : Prop} [Decidable left] (h : g.status ≠ .busy ∨ ¬left) :
    ¬g.runs (decide left) = true := by
  rw [Engine.runs_iff, decide_eq_true_eq, not_and_or]
  exact h

/-- Settles O9: each operation asks `Engine.runs` first, with the count of its own rule. -/
theorem stepOperationsRefuseOutsidePrecondition : Obligations.StepOperationsRefuseOutsidePrecondition := by
  intro s
  refine ⟨fun h => ?encDone, fun h => ?encTail, fun h x => ?encPair, fun h => ?decDone, fun h => ?decDangle,
    fun h => ?decTail, fun h => ?decTriplet⟩
  case encPair | decTriplet => exact if_neg (Engine.not_runs (h.imp_right Nat.not_le_of_lt))
  all_goals exact if_neg (Engine.not_runs h)

/-- The characters of several digits, at the positions from `a` on. -/
def State.charCells (s : State) : Nat → List Digit → List Host.Cell
  | _, [] => []
  | a, d :: ds => (a, s.charOf d) :: s.charCells (a + 1) ds

theorem State.charCells_positions (s : State) (a : Nat) (ds : List Digit) :
    (s.charCells a ds).map Prod.fst = List.range' a ds.length := by
  induction ds generalizing a with
  | nil => rfl
  | cons d ds ih => exact congrArg (a :: ·) (ih (a + 1))

theorem State.mem_charCells {s : State} {a k : Nat} {ds : List Digit} {d : Digit} (h : ds[k]? = some d) :
    (a + k, s.charOf d) ∈ s.charCells a ds := by
  induction ds generalizing a k with
  | nil => cases h
  | cons x ds ih =>
    cases k with
    | zero =>
      cases h
      exact List.mem_cons_self
    | succ k =>
      rw [Nat.add_succ, ← Nat.succ_add]
      exact List.mem_cons_of_mem _ (ih h)

section Characters
variable {s t : State} {a : Nat} {ds : List Digit} (hdst : t.enc.dst = (s.enc.writeDsts (s.charCells a ds)).dst)
include hdst

/-- Where the encoder has written legal digits, their characters stand. -/
theorem State.encLut_readDst_charCells {k : Nat} {d : Digit} (hk : ds[k]? = some d) (hd : d.toNat < 45) :
    encLut d = some (t.readDst .encoder (a + k)) := by
  have hwf : Memory.wf (s.charCells a ds) :=
    List.pairwise_map.1 (s.charCells_positions a ds ▸ List.pairwise_lt_range')
  rw [State.readDst_written (e := .encoder) hdst hwf (State.mem_charCells hk)]
  exact s.charOf_legal hd

theorem State.readDst_outside_charCells (hepoch : t.epoch = s.epoch) {b : Nat} (hb : b < a ∨ a + ds.length ≤ b) :
    t.readDst .encoder b = s.readDst .encoder b := by
  refine State.readDst_not_written (e := .encoder) hdst hepoch ?_
  rw [State.charCells_positions, List.mem_range'_1]
  omega

end Characters

/-- Settles O25: the digits by `pack16_eq_iff`, and what the three writes leave in DST by the laws of `charCells`. -/
theorem encodePairWritesTriplet : Obligations.EncodePairWritesTriplet := by
  intro x s hb hl
  rcases hp : pack16 (merge16 (s.readSrc .encoder s.enc.pos) (s.readSrc .encoder (s.enc.pos + 1))) with ⟨c, d, e⟩
  have hdigits := (pack16_eq_iff _ _ _ _).1 hp
  rw [merge16_toNat] at hdigits
  obtain ⟨t, hexec, henc, hepoch, hframe⟩ : ∃ t, exec (.encPair x) s = .next t ∧
      t.enc.dst = (s.enc.writeDsts (s.charCells (3 * (s.enc.pos / 2)) [c, d, e])).dst ∧ t.epoch = s.epoch ∧
      t = { s with enc := { s.enc with pos := s.enc.pos + 2, dst := t.enc.dst } } :=
    ⟨_, execEncPair_eq x hb hl hp, rfl, rfl, rfl⟩
  exact ⟨t, c, d, e, hexec, hframe, hdigits,
    State.encLut_readDst_charCells henc (k := 0) rfl (by omega),
    State.encLut_readDst_charCells henc (k := 1) rfl (by omega),
    State.encLut_readDst_charCells henc (k := 2) rfl (by omega),
    fun a ha => State.readDst_outside_charCells henc hepoch ha⟩

/-- Settles O26: as the pair, with the two digits of `pack8_eq_iff`. -/
theorem encodeTailWritesTwoCharacters : Obligations.EncodeTailWritesTwoCharacters := by
  intro s hb hl
  rcases hp : pack8 (s.readSrc .encoder s.enc.pos) with ⟨c, d⟩
  obtain ⟨hc, hd⟩ := (pack8_eq_iff _ _ _).1 hp
  obtain ⟨t, hexec, henc, hepoch, hframe⟩ : ∃ t, exec .encTail s = .next t ∧
      t.enc.dst = (s.enc.writeDsts (s.charCells (3 * (s.enc.pos / 2)) [c, d])).dst ∧ t.epoch = s.epoch ∧
      t = { s with enc := { s.enc with pos := s.enc.pos + 1, dst := t.enc.dst } } :=
    ⟨_, execEncTail_eq hb hl hp, rfl, rfl, rfl⟩
  exact ⟨t, c, d, hexec, hframe, hc, hd,
    State.encLut_readDst_charCells henc (k := 0) rfl (by omega),
    State.encLut_readDst_charCells henc (k := 1) rfl (by omega),
    fun a ha => State.readDst_outside_charCells henc hepoch ha⟩

/-- Settles O27: the forward law of ENC_DONE, and OUT_LEN in DONE. -/
theorem encodeDoneSetsStatusAndLength : Obligations.EncodeDoneSetsStatusAndLength :=
  fun _ hb hl => ⟨execEncDone_eq hb hl, Engine.outLen_done rfl⟩

end Sys2Proof.Machine
end

section
/-! SUPPORT. What a step can make of the encoder's STATUS and error registers (R106). -/

namespace Sys2Proof.Machine

@[simp] theorem Engine.writeDsts_errKind (ws : List Host.Cell) (g : Engine) : (g.writeDsts ws).errKind = g.errKind := by
  rw [Engine.writeDsts_eq]

@[simp] theorem Engine.writeDsts_errPos (ws : List Host.Cell) (g : Engine) : (g.writeDsts ws).errPos = g.errPos := by
  rw [Engine.writeDsts_eq]

/-- An engine that reports no fault: not in ERROR, its error registers at 0 (R26, R27). -/
structure Engine.NoFault (g : Engine) : Prop where
  status : g.status ≠ .error
  errKind : g.errKind = .none
  errPos : g.errPos = 0

section EncoderSteps
variable {p : Params} {g g' : Engine} (h : EngineStep p .encoder g g')
include h

/-- The two moves that raise a fault are the decoder's alone (R106). -/
theorem EngineStep.encoder_noFault (hg : g.NoFault) : g'.NoFault := by
  cases h with
  | reset => exact ⟨nofun, rfl, rfl⟩
  | start => exact ⟨nofun, rfl, rfl⟩
  | finish => exact ⟨nofun, hg.errKind, hg.errPos⟩
  | group k ws => exact ⟨by simpa using hg.status, by simpa using hg.errKind, by simpa using hg.errPos⟩
  | kept | writeSrc | writeLen | statusRead | readDst => exact ⟨hg.status, hg.errKind, hg.errPos⟩

/-- The moves of the encoder's STATUS (R25, R106). -/
theorem EngineStep.encoder_status : g'.status = g.status ∨ (g'.status = .busy ∧ g.status ≠ .busy) ∨
    (g'.status = .done ∧ g.status = .busy) ∨ g' = Engine.reset := by
  cases h with
  | reset => exact .inr (.inr (.inr rfl))
  | start hb => exact .inr (.inl ⟨rfl, hb⟩)
  | finish hb => exact .inr (.inr (.inl ⟨rfl, hb⟩))
  | group k ws => exact .inl (by simp)
  | kept | writeSrc | writeLen | statusRead | readDst => exact .inl rfl

end EncoderSteps

/-- Settles O43: the encoder's share of the frame of every step. -/
theorem encoderNeverFaults : Obligations.EncoderNeverFaults := by
  intro s t hs hk hp hstep
  have henc : EngineStep s.params .encoder s.enc t.enc := (step_frame hstep).engine .encoder
  obtain ⟨hs', hk', hp'⟩ := henc.encoder_noFault ⟨hs, hk, hp⟩
  exact ⟨hs', hk', hp', henc.encoder_status⟩

end Sys2Proof.Machine
end

section
/-! SUPPORT. What the string of an ENCODE is worth: it is a function of the input bytes, and its DECODE gives them back
(R108, R109, R130). -/

namespace Sys2Proof.Machine

/-- What OUT_LEN reads at the end of a call (R105, R115). -/
theorem CallAt.outLen {e : EngineId} {P : Nat → Byte → Prop} {s t : State} {n : Nat} (h : CallAt e P s .done n t) :
    (t.engine e).outLen e = some (outputLength e (s.engine e).len) := by
  rw [Engine.outLen_done h.status, h.len]

section Encoded
variable {s u : State}

/-- How a run of all the turns of an ENCODE ends. -/
theorem EncodeAt.of_run {t : State} {r : List Agent} (hb : s.enc.status = .busy) (hp : s.enc.pos = 0)
    (ht : s.turns = List.replicate (s.enc.len / 2 + s.enc.len % 2 + 1) (.engine .encoder) ++ r)
    (hrun : runSteps (s.enc.len / 2 + s.enc.len % 2 + 1) s = .next t) : EncodeAt s .done s.enc.len t := by
  obtain ⟨t', hrun', -, h⟩ := encode_call s s r (CallAt.start hb hp) ht
  cases hrun.symm.trans hrun'
  exact h

/-- The digits of a group that begins in the input depend on no byte beyond it. -/
theorem State.groupDigit_congr_of_input (hlen : u.enc.len = s.enc.len)
    (hsrc : ∀ i, i < s.enc.len → u.readSrc .encoder i = s.readSrc .encoder i) {i : Nat} (hi : 2 * i < s.enc.len)
    (k : Nat) : u.groupDigit i k = s.groupDigit i k := by
  by_cases hpair : 2 * i + 2 ≤ s.enc.len
  · simp only [State.groupDigit, hlen, if_pos hpair, hsrc (2 * i) hi, hsrc (2 * i + 1) hpair]
  · simp only [State.groupDigit, hlen, if_neg hpair, hsrc (2 * i) hi]

end Encoded

/-- Settles O58: at each position both strings have the character of the same digit. -/
theorem encodeResultDependsOnlyOnInput : Obligations.EncodeResultDependsOnlyOnInput := by
  intro s t s' t' r r' hb hp hb' hp' hlen hsrc ht ht' hrun hrun'
  have h : EncodeAt s .done s.enc.len t := .of_run hb hp ht hrun
  have h' : EncodeAt s' .done s.enc.len t' := hlen ▸ EncodeAt.of_run hb' hp' (hlen.symm ▸ ht') (hlen.symm ▸ hrun')
  refine ⟨h'.status.trans h.status.symm, fun k hk => ?_⟩
  have hgroup : 2 * (k / 3) < s.enc.len := by
    rw [outputLength_encoder] at hk
    omega
  have hchar : encLut (s.groupDigit (k / 3) (k % 3)) = some (t.readDst .encoder k) := h.written k hk
  have hchar' : encLut (s'.groupDigit (k / 3) (k % 3)) = some (t'.readDst .encoder k) := h'.written k hk
  rw [State.groupDigit_congr_of_input hlen hsrc hgroup] at hchar'
  exact Option.some.inj (hchar'.symm.trans hchar)

section Strings
variable {s u : State}

/-- The decoder's input in `u` is the string of the encoder's input in `s`. -/
structure State.HoldsStringOf (u s : State) : Prop where
  len : u.dec.len = outputLength .encoder s.enc.len
  chars : ∀ i, i < u.dec.len → s.EncodesAs i (u.readSrc .decoder i)

/-- A string reads back as the digits it was written from (R82). -/
theorem State.HoldsStringOf.hit (h : u.HoldsStringOf s) {i k : Nat} (hk : k < 3) (hi : 3 * i + k < u.dec.len) :
    decLut (u.readSrc .decoder (3 * i + k)) = some (s.groupDigit i k) :=
  decLut_of_encLut ((State.encodesAs_iff hk).1 (h.chars _ hi))

theorem State.HoldsStringOf.valid (h : u.HoldsStringOf s) {i : Nat} (hi : i < u.dec.len) : u.validAt i = true := by
  rw [State.validAt, decLut_of_encLut (h.chars i hi)]
  rfl

/-- The triplet of a pair of bytes unpacks to the value of the pair (R98, R102, R111). -/
theorem State.HoldsStringOf.triplet (h : u.HoldsStringOf s) {i : Nat} (hi : 2 * i + 2 ≤ s.enc.len) :
    ∃ c d e, u.tripletDigits (3 * i) = .ok (c, d, e) ∧
      (unpack16 c d e).toNat = (s.readSrc .encoder (2 * i)).toNat * 256 + (s.readSrc .encoder (2 * i + 1)).toNat := by
  have hin := h.len
  rw [outputLength_encoder] at hin
  have hhit := fun k (hk : k < 3) => h.hit (i := i) hk (by omega)
  rw [State.groupDigit_pair hi rfl] at hhit
  exact ⟨_, _, _, State.tripletDigits_of_hits (hhit 0 (by decide)) (hhit 1 (by decide)) (hhit 2 (by decide)),
    (unpack16_pack16_toNat _).trans (merge16_toNat _ _)⟩

/-- The tail of the odd last byte unpacks to that byte (R98, R103, R112). -/
theorem State.HoldsStringOf.tail (h : u.HoldsStringOf s) {i : Nat} (hi : 2 * i + 1 = s.enc.len) :
    ∃ c d, u.tailDigits (3 * i) = .ok (c, d) ∧ (unpack8 c d).toNat = (s.readSrc .encoder (2 * i)).toNat := by
  have hin := h.len
  rw [outputLength_encoder] at hin
  have hhit := fun k (hk : k < 2) => h.hit (i := i) (k := k) (by omega) (by omega)
  rw [State.groupDigit_tail (by omega) rfl] at hhit
  exact ⟨_, _, State.tailDigits_of_hits (hhit 0 (by decide)) (hhit 1 (by decide)), unpack8_pack8_toNat _⟩

/-- No group of a string overflows, so what it decodes as is the byte that was encoded, whatever the policy (R108). -/
theorem State.HoldsStringOf.byte (h : u.HoldsStringOf s) {a : Nat} (ha : a < s.enc.len) {v : Byte}
    (hv : u.DecodesAs a v) : v = s.readSrc .encoder a := by
  obtain ⟨i, hi⟩ : ∃ i, a = 2 * i ∨ a = 2 * i + 1 := ⟨a / 2, by omega⟩
  have hin := h.len
  rw [outputLength_encoder] at hin
  rw [← BitVec.toNat_inj]
  by_cases hpair : 2 * i + 2 ≤ s.enc.len
  · obtain ⟨c, d, e, hdigits, hvalue⟩ := h.triplet hpair
    obtain ⟨hhigh, hlow⟩ := hv.triplet i c d e (by omega) hdigits (.inl (by omega))
    obtain rfl | rfl := hi
    · rw [hhigh rfl]
      omega
    · rw [hlow rfl]
      omega
  · obtain rfl : a = 2 * i := by omega
    obtain ⟨c, d, hdigits, hvalue⟩ := h.tail (i := i) (by omega)
    rw [hv.tail i c d (by omega) hdigits (.inl (by omega)) rfl]
    omega

/-- The string an ENCODE leaves, taken over by a decoder. -/
theorem State.HoldsStringOf.of_encode {t : State} (h : EncodeAt s .done s.enc.len t)
    (hlen : some u.dec.len = t.enc.outLen .encoder)
    (hsrc : ∀ i, i < u.dec.len → u.readSrc .decoder i = t.readDst .encoder i) : u.HoldsStringOf s := by
  have hulen : u.dec.len = outputLength .encoder s.enc.len := Option.some.inj (hlen.trans h.outLen)
  refine ⟨hulen, fun i hi => ?_⟩
  rw [hsrc i hi]
  exact h.written i (hulen ▸ hi)

end Strings

/-- Settles O57: the string is valid and has no dangling character, so `decode_call` runs it to DONE, and each byte is
the encoder's by `HoldsStringOf.byte`. -/
theorem decodeOfEncodeGivesBytesBack : Obligations.DecodeOfEncodeGivesBytesBack := by
  intro s t u r q hb hp ht hrun hub hup hlen hsrc hut
  have h : u.HoldsStringOf s := .of_encode (.of_run hb hp ht hrun) hlen hsrc
  have hulen := h.len
  rw [outputLength_encoder] at hulen
  have hnodangle : u.dec.len % 3 ≠ 1 := by omega
  have hvalid : ∀ i, i < consumedLength u.dec.len → u.validAt i = true := by
    rw [consumedLength, if_neg hnodangle]
    exact fun i hi => h.valid hi
  obtain ⟨v, hvrun, -, hv⟩ :=
    decode_call hvalid (fun hd => absurd hd hnodangle) u q (CallAt.start hub hup) hut
  have hout : outputLength .decoder u.dec.len = s.enc.len := by
    rw [outputLength_decoder]
    omega
  exact ⟨v, hvrun, hv.status, hv.outLen.trans (congrArg some hout),
    fun i hi => h.byte hi (hv.written i (hout.symm ▸ hi))⟩

end Sys2Proof.Machine
end

section
/-! SUPPORT. The decoder's step operations by themselves: what one of them writes at any cursor, and the fault of the
first character that is not in the alphabet (R110 to R116, R144). -/

namespace Sys2Proof.Machine

/-- Settles O30: the forward laws of DEC_DANGLE, one for each policy. -/
theorem decodeDangleFollowsPolicy : Obligations.DecodeDangleFollowsPolicy :=
  fun _ hb hl => ⟨execDecDangle_ignore hb hl, execDecDangle_reject hb hl⟩

/-- Settles O31: the forward law of DEC_DONE, and OUT_LEN in DONE. -/
theorem decodeDoneSetsStatusAndLength : Obligations.DecodeDoneSetsStatusAndLength :=
  fun _ hb hl => ⟨execDecDone_eq hb hl, Engine.outLen_done rfl⟩

section Misses
variable {s : State} {p : Nat}

theorem State.validAt_congr {u : State} (h : ∀ i, u.readSrc .decoder i = s.readSrc .decoder i) (p : Nat) :
    u.validAt p = s.validAt p := by
  rw [State.validAt, State.validAt, h]

theorem State.digitAt_of_valid (h : s.validAt p = true) : ∃ d, s.digitAt p = .ok d := by
  obtain ⟨d, -, hd⟩ | ⟨hnone, -⟩ := s.digitAt_cases p
  · exact ⟨d, hd⟩
  · rw [State.validAt, hnone] at h
    cases h

theorem State.digitAt_of_miss (h : s.validAt p = false) : s.digitAt p = .error p := by
  obtain ⟨d, hd, -⟩ | ⟨-, herror⟩ := s.digitAt_cases p
  · rw [State.validAt, hd] at h
    cases h
  · exact herror

section FirstMiss
variable {k : Nat} (hmiss : s.validAt (p + k) = false) (hhits : ∀ j, j < k → s.validAt (p + j) = true)
include hmiss hhits

theorem State.tailDigits_of_first_miss (hk : k < 2) : s.tailDigits p = .error (p + k) := by
  obtain rfl | rfl : k = 0 ∨ k = 1 := by omega
  · have hfirst : s.digitAt p = .error p := State.digitAt_of_miss hmiss
    simp only [State.tailDigits, hfirst, Nat.add_zero]
  · obtain ⟨c, hc⟩ : ∃ c, s.digitAt p = .ok c := State.digitAt_of_valid (hhits 0 Nat.one_pos)
    simp only [State.tailDigits, hc, State.digitAt_of_miss hmiss]

theorem State.tripletDigits_of_first_miss (hk : k < 3) : s.tripletDigits p = .error (p + k) := by
  obtain hk | rfl : k < 2 ∨ k = 2 := by omega
  · simp only [State.tripletDigits, State.tailDigits_of_first_miss hmiss hhits hk]
  · obtain ⟨c, d, hcd⟩ : ∃ c d, s.tailDigits p = .ok (c, d) :=
      State.tailDigits_of_valid (hhits 0 (by decide)) (hhits 1 (by decide))
    simp only [State.tripletDigits, hcd, State.digitAt_of_miss hmiss]

end FirstMiss

end Misses

section Draws
variable {s : State}

theorem State.tripletDraws_eq_zero {n : BitVec 17} (h : n.toNat ≤ 65535 ∨ s.params.overflow = .wrap) :
    s.tripletDraws n = 0 := by
  rw [State.tripletDraws, State.opensBytes_eq_false (h.imp_left fun h => decide_eq_false (by omega))]
  rfl

theorem State.tailDraws_eq_zero {n : BitVec 11} (h : n.toNat ≤ 255 ∨ s.params.overflow = .wrap) :
    s.tailDraws n = 0 := by
  rw [State.tailDraws, State.opensBytes_eq_false (h.imp_left fun h => decide_eq_false (by omega))]
  rfl

end Draws

/-- The two bytes of a triplet of value `n` in group `i`, each with its position (R67). -/
def State.tripletCells (s : State) (i : Nat) (n : BitVec 17) : List Host.Cell :=
  [(2 * i, (s.tripletBytes n).1), (2 * i + 1, (s.tripletBytes n).2)]

theorem State.tripletCells_positions (s : State) (i : Nat) (n : BitVec 17) :
    (s.tripletCells i n).map Prod.fst = List.range' (2 * i) 2 := rfl

/-- DST after the two writes of a triplet (R111). -/
theorem State.readDst_tripletCells {s t : State} {i : Nat} {n : BitVec 17}
    (hdst : t.dec.dst = (s.dec.writeDsts (s.tripletCells i n)).dst) (hepoch : t.epoch = s.epoch) :
    t.readDst .decoder (2 * i) = (s.tripletBytes n).1 ∧ t.readDst .decoder (2 * i + 1) = (s.tripletBytes n).2 ∧
      ∀ a, a < 2 * i ∨ 2 * i + 1 < a → t.readDst .decoder a = s.readDst .decoder a := by
  have hread : ∀ w ∈ s.tripletCells i n, t.readDst .decoder w.1 = w.2 := fun w hw =>
    State.readDst_written (e := .decoder) hdst (List.pairwise_pair.2 (Nat.lt_succ_self _)) hw
  refine ⟨hread _ List.mem_cons_self, hread _ (List.mem_cons_of_mem _ List.mem_cons_self), fun a ha => ?_⟩
  refine State.readDst_not_written (e := .decoder) hdst hepoch ?_
  rw [State.tripletCells_positions, List.mem_range'_1]
  omega

/-- Settles O28: the forward laws of DEC_TRIPLET, for three hits and for the first miss. -/
theorem decodeTripletWritesPairOrFaults : Obligations.DecodeTripletWritesPairOrFaults := by
  intro s hb hl
  refine ⟨fun c d e hc hd he => ?hits, fun k hk hmiss hhits => ?miss⟩
  case miss => exact execDecTriplet_error hb hl (State.tripletDigits_of_first_miss hmiss hhits hk)
  case hits =>
    obtain ⟨t, hexec, hdst, hepoch, hdraws, hframe⟩ : ∃ t, exec .decTriplet s = .next t ∧
        t.dec.dst = (s.dec.writeDsts (s.tripletCells (s.dec.pos / 3) (unpack16 c d e))).dst ∧ t.epoch = s.epoch ∧
        t.draws = s.draws + s.tripletDraws (unpack16 c d e) ∧
        t = { s with dec := { s.dec with pos := s.dec.pos + 3, dst := t.dec.dst }, draws := t.draws } :=
      ⟨_, execDecTriplet_ok hb hl (State.tripletDigits_of_hits hc hd he), rfl, rfl, rfl, rfl⟩
    obtain ⟨hfirst, hsecond, hothers⟩ := State.readDst_tripletCells hdst hepoch
    refine ⟨t, hexec, hframe, fun hn => ?_, hothers⟩
    rw [← unpack16_toNat] at hn ⊢
    rw [hdraws, State.tripletDraws_eq_zero hn, hfirst, hsecond]
    exact ⟨rfl, State.tripletBytes_toNat hn⟩

/-- Settles O29: as the triplet, with one byte. -/
theorem decodeTailWritesByteOrFaults : Obligations.DecodeTailWritesByteOrFaults := by
  intro s hb hl
  refine ⟨fun c d hc hd => ?hits, fun k hk hmiss hhits => ?miss⟩
  case miss => exact execDecTail_error hb hl (State.tailDigits_of_first_miss hmiss hhits hk)
  case hits =>
    obtain ⟨t, hexec, hdst, hepoch, hdraws, hframe⟩ : ∃ t, exec .decTail s = .next t ∧
        t.dec.dst = (s.dec.writeDsts [(2 * (s.dec.pos / 3), s.tailByte (unpack8 c d))]).dst ∧ t.epoch = s.epoch ∧
        t.draws = s.draws + s.tailDraws (unpack8 c d) ∧
        t = { s with dec := { s.dec with pos := s.dec.pos + 2, dst := t.dec.dst }, draws := t.draws } :=
      ⟨_, execDecTail_ok hb hl (State.tailDigits_of_hits hc hd), rfl, rfl, rfl, rfl⟩
    refine ⟨t, hexec, hframe, fun hn => ?_, fun a ha => ?_⟩
    · rw [← unpack8_toNat c (Nat.le_of_lt_succ (decLut_legal hd))] at hn ⊢
      have hbyte : t.readDst .decoder (2 * (s.dec.pos / 3)) = s.tailByte (unpack8 c d) :=
        State.readDst_written (e := .decoder) hdst (List.pairwise_singleton _ _) List.mem_cons_self
      rw [hdraws, State.tailDraws_eq_zero hn, hbyte]
      exact ⟨rfl, State.tailByte_toNat hn⟩
    · exact State.readDst_not_written (e := .decoder) hdst hepoch (mt List.mem_singleton.1 ha)

end Sys2Proof.Machine
end

section
/-! SUPPORT. A DECODE that ends in a fault (R116, R143, R144, R170). -/

namespace Sys2Proof.Machine

/-- The turn that meets the first miss of its group, the `k`-th character at the cursor. -/
theorem step_decMiss {s : State} {r : List Agent} {k : Nat} (ht : s.turns = .engine .decoder :: r)
    (hb : s.dec.status = .busy) (hk : k < 3) (hl : k < s.dec.remaining) (hgroup : 2 ≤ s.dec.remaining)
    (hmiss : s.validAt (s.dec.pos + k) = false) (hhits : ∀ j, j < k → s.validAt (s.dec.pos + j) = true) :
    step s = .next { s with turns := r, dec := s.dec.raise .invalidCharacter (s.dec.pos + k) } := by
  obtain ⟨-, -, htail, htriplet, -⟩ := decoderTurnRunsSelectedOperation s r ht
  obtain htwo | hthree : s.dec.remaining = 2 ∨ 3 ≤ s.dec.remaining := by omega
  · obtain ⟨-, hfault⟩ := decodeTailWritesByteOrFaults { s with turns := r } hb htwo
    exact (htail hb htwo).trans (hfault k (by omega) hmiss hhits)
  · obtain ⟨-, hfault⟩ := decodeTripletWritesPairOrFaults { s with turns := r } hb hthree
    exact (htriplet hb hthree).trans (hfault k hk hmiss hhits)

/-- The DECODE that begins in `s` has ended in `t` with the fault `k` at `q`, its cursor at `n`; what it has written to
DST is left open (R119). -/
def DecodeFaults (s : State) (k : ErrKind) (q n : Nat) (t : State) : Prop :=
  t = { s with turns := t.turns, draws := t.draws,
               dec := { s.dec with status := .error, errKind := k, errPos := q, pos := n, dst := t.dec.dst } }

section Faults
variable {s u : State}

/-- A fault taken in the course of a call changes nothing but STATUS and the error registers (R143). -/
theorem CallAt.raise {n : Nat} (h : DecodeAt s .busy n u) (k : ErrKind) (q : Nat) (r : List Agent) :
    DecodeFaults s k q n { u with turns := r, dec := u.dec.raise k q } := by
  have hrest : { u with turns := r, dec := u.dec.raise k q } =
      { s with turns := r, draws := u.draws, dec := u.dec.raise k q } :=
    congrArg (fun v : State => { v with turns := r, dec := u.dec.raise k q }) h.others
  have hdec : u.dec.raise k q =
      { s.dec with status := .error, errKind := k, errPos := q, pos := n, dst := u.dec.dst } :=
    congrArg (Engine.raise k q) h.engine
  rw [DecodeFaults, hrest, hdec]

/-- The turn that ends a DECODE at the group of its first invalid character. -/
theorem decode_miss {p : Nat} (hp : p < consumedLength s.dec.len) (hmiss : s.validAt p = false)
    (hhits : ∀ j, j < p → s.validAt j = true) :
    LeadsTo (.engine .decoder) 1 (DecodeAt s .busy (3 * (p / 3)))
      (DecodeFaults s .invalidCharacter p (3 * (p / 3))) := by
  refine .of_step fun u r h ht => ⟨_, ?_, rfl, h.raise .invalidCharacter p r⟩
  have hpos : u.dec.pos = 3 * (p / 3) := h.pos
  have hlen : u.dec.len = s.dec.len := h.len
  have hat : u.dec.pos + p % 3 = p := by rw [hpos, Nat.div_add_mod]
  obtain ⟨hleft, htwo⟩ : p % 3 < u.dec.remaining ∧ 2 ≤ u.dec.remaining := by
    unfold consumedLength at hp
    unfold Engine.remaining
    split at hp <;> omega
  have hvalid := State.validAt_congr h.readSrc
  have hstep := step_decMiss ht h.status (Nat.mod_lt p (by decide)) hleft htwo (by rw [hvalid, hat, hmiss])
    fun j hj => by rw [hvalid]; exact hhits _ (by omega)
  rwa [hat] at hstep

/-- The triplets before the group of the first invalid character, then that group: the turns of such a DECODE (R170). -/
theorem decode_call_invalid {p : Nat} (hp : p < consumedLength s.dec.len) (hmiss : s.validAt p = false)
    (hhits : ∀ j, j < p → s.validAt j = true) :
    LeadsTo (.engine .decoder) (p / 3 + 1) (DecodeAt s .busy 0)
      (DecodeFaults s .invalidCharacter p (3 * (p / 3))) := by
  have hlen : p < s.dec.len := hp.trans_le (by unfold consumedLength; split <;> omega)
  exact (decode_triplets (by omega) fun i hi => hhits i (by omega)).trans (decode_miss hp hmiss hhits)

end Faults

/-- Settles O55, by `decode_call_invalid`. -/
theorem decodeCallReportsFirstInvalid : Obligations.DecodeCallReportsFirstInvalid := by
  intro s r p hb hpos hp hmiss hhits ht
  obtain ⟨t, hrun, rfl, h⟩ := decode_call_invalid hp hmiss hhits s r (CallAt.start hb hpos) ht
  exact ⟨t, hrun, h⟩

end Sys2Proof.Machine
end

section
/-! SUPPORT. The host's side: START by itself, what a read leaves of the block, and the step of each move of the host
(R125 to R127, R133, R134). -/

namespace Sys2Proof.Machine

/-- What a host read can do: present a value, and move the record of whose the buffers are, only by a read of STATUS or
of DST (R133, R164). -/
theorem hostRead_next_cases {a : HostAccess} {s t : State} (ha : a.isRead = true) (h : hostAccess a s = .next t) :
    ∃ e w o k, t = ((s.setEngine e { s.engine e with owner := w }).setOut o).drawn k ∧
      (w = (s.engine e).owner ∨ a = .readStatus e ∨ a.touches e = true) := by
  obtain ⟨rfl, -⟩ | ⟨_, _, _, rfl, -⟩ | ⟨_, _, rfl, -⟩ | ⟨e, g, o, k, -, rfl, hg⟩ := hostAccess_next_cases h
  case inl | inr.inl | inr.inr.inl => cases ha
  obtain rfl | ⟨rfl, rfl⟩ | ⟨i, rfl, -, rfl⟩ := hg
  · exact ⟨e, _, o, k, rfl, .inl rfl⟩
  · exact ⟨e, _, o, k, rfl, .inr (.inl rfl)⟩
  · exact ⟨e, _, o, k, rfl, .inr (.inr (decide_eq_true rfl))⟩

/-- Settles O35: the record is the only thing of an engine that a read moves, and the other engine's stays. -/
theorem hostReadsChangeNothing : Obligations.HostReadsChangeNothing := by
  intro a s t ha h
  obtain ⟨e', w, o, k, rfl, hw⟩ := hostRead_next_cases ha h
  refine ⟨by cases e' <;> rfl, fun e hstatus htouch => ?_⟩
  rw [State.engine_drawn, State.engine_setOut]
  by_cases he : e = e'
  · subst he
    rw [State.engine_setEngine_same]
    exact hw.resolve_right (not_or_intro hstatus (by simp [htouch]))
  · rw [State.engine_setEngine_other s _ he]

/-- START on an engine that is not BUSY restarts it and changes nothing else (R126, R127). -/
theorem State.startCall_of_not_busy {s : State} {e : EngineId} (hb : (s.engine e).status ≠ .busy) :
    s.startCall e = .next (s.setEngine e (s.engine e).start) :=
  if_neg hb

/-- Settles O32, by the law of START. -/
theorem startEncodeBeginsCall : Obligations.StartEncodeBeginsCall :=
  fun _ hb => State.startCall_of_not_busy (e := .encoder) hb

/-- Settles O33, by the law of START, which does not ask which STATUS it is that is not BUSY. -/
theorem startDecodeBeginsCall : Obligations.StartDecodeBeginsCall :=
  fun _ hb => State.startCall_of_not_busy (e := .decoder) hb

/-- What a move of the host presents in the state `u` in which it is made (log 16). -/
def HostMove.fetched (u : State) : HostMove → Fetched
  | .start b => .word .start b.toNat u
  | .eval f w => .word (.func f) w u
  | .access a => .access a u

section HostTurns
variable {s : State} {r : List Agent} (ht : s.turns = .host :: r)
include ht

/-- On the host's turn its next move is taken off and presented. -/
theorem State.fetch_host_move {m : HostMove} {ms : List HostMove} (hp : s.pending = m :: ms) :
    s.fetch = m.fetched { s with turns := r, pending := ms } := by
  rw [State.fetch_host ht, State.hostMove, hp]
  cases m <;> rfl

/-- On the host's turn a START or an operand word that decodes is executed (R126, R127, R134). -/
theorem step_host_word {m : HostMove} {ms : List HostMove} {p : Port} {w : Nat} {i : Instr}
    (hp : s.pending = m :: ms) (hm : ∀ u, m.fetched u = .word p w u) (hd : decode p w = .ok i) :
    step s = exec i { s with turns := r, pending := ms } :=
  step_word ((State.fetch_host_move ht hp).trans (hm _)) hd

/-- On the host's turn an access is made (R125). -/
theorem step_host_access {a : HostAccess} {ms : List HostMove} (hp : s.pending = .access a :: ms) :
    step s = hostAccess a { s with turns := r, pending := ms } := by
  rw [step, State.fetch_host_move ht hp]
  rfl

/-- On the host's turn, where it has no move to make, the turn passes. -/
theorem step_host_idle (hp : s.pending = []) : step s = .next { s with turns := r } := by
  rw [step, State.fetch_host ht, State.hostMove, hp]

end HostTurns

/-- Settles O8: the two START words by their selects, and each other move by the law of its kind. -/
theorem hostTurnMakesPendingMove : Obligations.HostTurnMakesPendingMove := by
  intro s r ht
  refine ⟨fun m hp => ?_, fun m hp => ?_, fun f w i m hp hd => ?_, fun a m hp => ?_, fun hp => ?_⟩
  · exact step_host_word ht hp (fun _ => rfl) rfl
  · exact step_host_word ht hp (fun _ => rfl) rfl
  · exact step_host_word ht hp (fun _ => rfl) hd
  · exact step_host_access ht hp
  · exact step_host_idle ht hp

end Sys2Proof.Machine
end

section
/-! SUPPORT. A DECODE that rejects its dangling character (R113, R142, R143, R170). -/

namespace Sys2Proof.Machine

section Dangling
variable {s : State}

/-- The turn that ends a DECODE at its dangling character under REJECT (R113, R142). -/
theorem decode_reject (hdangling : s.dec.len % 3 = 1) (hreject : s.params.dangle = .reject) :
    LeadsTo (.engine .decoder) 1 (DecodeAt s .busy (3 * (s.dec.len / 3)))
      (DecodeFaults s .lengthError (s.dec.len - 1) (s.dec.len - 1)) := by
  have hlast : 3 * (s.dec.len / 3) = s.dec.len - 1 := by omega
  rw [hlast]
  refine .of_step fun u r h ht => ⟨_, ?_, rfl, h.raise .lengthError (s.dec.len - 1) r⟩
  have hpos : u.dec.pos = s.dec.len - 1 := h.pos
  have hlen : u.dec.len = s.dec.len := h.len
  have hleft : u.dec.remaining = 1 := by unfold Engine.remaining; omega
  obtain ⟨-, hdangle, -⟩ := decoderTurnRunsSelectedOperation u r ht
  rw [← hpos]
  exact (hdangle h.status hleft).trans
    (execDecDangle_reject (s := { u with turns := r }) h.status hleft (h.params.symm ▸ hreject))

/-- The triplets, then the rejected character: the turns of such a DECODE (R170). -/
theorem decode_call_rejects (hdangling : s.dec.len % 3 = 1) (hreject : s.params.dangle = .reject)
    (hvalid : ∀ j, j < s.dec.len - 1 → s.validAt j = true) :
    LeadsTo (.engine .decoder) (s.dec.len / 3 + 1) (DecodeAt s .busy 0)
      (DecodeFaults s .lengthError (s.dec.len - 1) (s.dec.len - 1)) :=
  (decode_triplets (by omega) fun i hi => hvalid i (by omega)).trans (decode_reject hdangling hreject)

end Dangling

/-- Settles O56, by `decode_call_rejects`. -/
theorem decodeCallRejectsDangling : Obligations.DecodeCallRejectsDangling := by
  intro s r hb hpos hdangling hreject hvalid ht
  obtain ⟨t, hrun, rfl, h⟩ := decode_call_rejects hdangling hreject hvalid s r (CallAt.start hb hpos) ht
  exact ⟨t, hrun, h⟩

end Sys2Proof.Machine
end

section
/-! SUPPORT. The complete list of the steps that take a fault, and all that such a step does (R140 to R144). -/

namespace Sys2Proof.Machine

/-- The faults that a step of the decoder takes in `s`, each with its ERR_KIND and ERR_POS: the first miss inside the
group at the cursor, and a rejected dangling character (R140 to R142, R144). -/
inductive State.FaultsAt (s : State) : ErrKind → Nat → Prop where
  | miss (k : Nat) : 2 ≤ s.dec.remaining → k < min s.dec.remaining 3 → s.validAt (s.dec.pos + k) = false →
      (∀ j, j < k → s.validAt (s.dec.pos + j) = true) → s.FaultsAt .invalidCharacter (s.dec.pos + k)
  | dangle : s.dec.remaining = 1 → s.params.dangle = .reject → s.FaultsAt .lengthError s.dec.pos

/-- The decoder, BUSY in `s`, has taken one of its faults in `t`, and nothing else has changed (R143). -/
def TakesFault (s t : State) : Prop :=
  s.dec.status = .busy ∧ ∃ k q, s.FaultsAt k q ∧ t = s.setEngine .decoder (s.dec.raise k q)

section Faulting
variable {s t : State}

theorem State.validAt_eq_false {p : Nat} (h : decLut (s.readSrc .decoder p) = none) : s.validAt p = false := by
  rw [State.validAt, h, Option.isSome_none]

theorem execDecTriplet_takesFault (h : execDecTriplet s = .next t) (he : t.dec.status = .error) : TakesFault s t := by
  obtain ⟨hb, hl, ⟨q, hq, rfl⟩ | ⟨_, _, _, -, rfl⟩⟩ := execDecTriplet_next h
  · obtain ⟨_, _, _, -, -, -, hok⟩ | ⟨k, hk, hmiss, hhits, herror⟩ := s.tripletDigits_cases s.dec.pos
    · cases hok.symm.trans hq
    · cases herror.symm.trans hq
      exact ⟨hb, _, _, .miss k (by omega) (by omega) (State.validAt_eq_false hmiss) hhits, rfl⟩
  · cases hb.symm.trans he

theorem execDecTail_takesFault (h : execDecTail s = .next t) (he : t.dec.status = .error) : TakesFault s t := by
  obtain ⟨hb, hl, ⟨q, hq, rfl⟩ | ⟨_, _, -, rfl⟩⟩ := execDecTail_next h
  · obtain ⟨_, _, -, -, hok⟩ | ⟨k, hk, hmiss, hhits, herror⟩ := s.tailDigits_cases s.dec.pos
    · cases hok.symm.trans hq
    · cases herror.symm.trans hq
      exact ⟨hb, _, _, .miss k (by omega) (by omega) (State.validAt_eq_false hmiss) hhits, rfl⟩
  · cases hb.symm.trans he

theorem execDecDangle_takesFault (h : execDecDangle s = .next t) (he : t.dec.status = .error) : TakesFault s t := by
  obtain ⟨hb, hl, ⟨-, rfl⟩ | ⟨hreject, rfl⟩⟩ := execDecDangle_next h
  · cases hb.symm.trans he
  · exact ⟨hb, _, _, .dangle hl hreject, rfl⟩

/-- The operation of the table that takes the decoder into ERROR is one of its step operations. -/
theorem exec_takesFault {i : Instr} (hs : s.dec.status ≠ .error) (h : exec i s = .next t)
    (he : t.dec.status = .error) : (encode i).port = .sel3 ∧ TakesFault s t := by
  have changed : t.dec ≠ s.dec := fun hdec => hs (hdec ▸ he)
  have start : ∀ e, s.startCall e ≠ .next t := fun e h => by
    obtain ⟨-, hkept | hstart⟩ := startCall_idle (e := .decoder) h
    · exact changed hkept
    · cases (congrArg Engine.status hstart).symm.trans he
  have func : ∀ f, (encode i).port ≠ .func f := fun f hi => by
    obtain ⟨o, rfl⟩ | ⟨f, rfl⟩ := exec_func_next hi h <;> exact changed rfl
  cases i with
  | encDone => exact absurd (engineOp_encDone.engine_other h (e' := .decoder) nofun) changed
  | encTail => exact absurd (engineOp_encTail.engine_other h (e' := .decoder) nofun) changed
  | encPair x => exact absurd ((engineOp_encPair x).engine_other h (e' := .decoder) nofun) changed
  | decDone =>
    obtain ⟨-, -, rfl⟩ := execDecDone_next h
    cases he
  | decDangle => exact ⟨rfl, execDecDangle_takesFault h he⟩
  | decTail => exact ⟨rfl, execDecTail_takesFault h he⟩
  | decTriplet => exact ⟨rfl, execDecTriplet_takesFault h he⟩
  | startEncode | startDecode => exact absurd h (start _)
  | _ => exact absurd rfl (func _)

/-- A selector is an engine's word, so that no move of the host is taken with it (R68). -/
theorem State.fetch_sel3 {w : Nat} {u : State} (hf : s.fetch = .word .sel3 w u) : u = s.takeTurn := by
  unfold State.fetch at hf
  split at hf
  · unfold State.engineMove at hf
    split at hf <;> cases hf
    rfl
  · unfold State.hostMove at hf
    split at hf <;> cases hf

/-- A step into ERROR is a fault of the decoder, on a turn of its own. -/
theorem step_takesFault (hs : s.dec.status ≠ .error) (h : step s = .next t) (he : t.dec.status = .error) :
    TakesFault s.takeTurn t := by
  have hframe := s.fetch_frame
  have hu : ∀ e, s.fetch.state.engine e = s.engine e := fun e => by rw [hframe]; cases e <;> rfl
  obtain ⟨p, w, u, i, hf, hd, hx⟩ | ⟨a, u, hf, ha⟩ | hf := step_next_cases h <;> rw [hf] at hu
  · have hdec : u.dec = s.dec := hu .decoder
    obtain ⟨hport, hfault⟩ := exec_takesFault (hdec ▸ hs) hx he
    rw [encodeInvertsDecode p w i hd] at hport
    subst hport
    exact State.fetch_sel3 hf ▸ hfault
  · obtain hreset | ⟨-, hmove⟩ := hostAccess_idle (e := .decoder) hf hu ha
    · cases (congrArg Engine.status hreset).symm.trans he
    · obtain ⟨hstatus, -⟩ := hmove.result
      exact absurd (hstatus.symm.trans he) hs
  · exact absurd ((congrArg Engine.status (hu .decoder)).symm.trans he) hs

end Faulting

/-- Settles O44: a step into ERROR takes one of the listed faults, and taking a fault is all that it does. -/
theorem onlyListedFaultsEnterError : Obligations.OnlyListedFaultsEnterError := by
  intro s t hs h he
  obtain ⟨hb, k, q, hfault, rfl⟩ := step_takesFault hs h he
  refine ⟨hb, rfl, Engine.outLen_error rfl, ?_⟩
  cases hfault with
  | miss k hleft hk hmiss hhits =>
    refine .inl ⟨rfl, hleft, Nat.le_add_right _ k, Nat.add_lt_add_left hk _, hmiss, fun j hle hlt => ?_⟩
    obtain ⟨i, rfl⟩ := Nat.exists_eq_add_of_le hle
    exact hhits i (Nat.lt_of_add_lt_add_left hlt)
  | dangle hleft hreject =>
    have hlast : s.dec.pos = s.dec.len - 1 := by
      have hleft : s.dec.len - s.dec.pos = 1 := hleft
      omega
    exact .inr ⟨rfl, hreject, hleft, hlast⟩

end Sys2Proof.Machine
end

section
/-! SUPPORT. The turns of the two engines in either order: what each makes of its own engine, whatever else the state
holds (R20, R154). -/

namespace Sys2Proof.Machine

/-- `op` completes in `s` and makes `g` of the encoder, whatever the decoder, the count of free values and the turns
are (R20). -/
def EncoderYields (op : State → Host.Outcome State Fault Refusal) (s : State) (g : Engine) : Prop :=
  ∀ (h : Engine) (n : Nat) (r : List Agent),
    op { s with dec := h, draws := n, turns := r } = .next { s with enc := g, dec := h, draws := n, turns := r }

/-- `op` completes in `s`, makes `g` of the decoder and takes the count of free values to `n`, whatever the encoder and
the turns are (R20). -/
def DecoderYields (op : State → Host.Outcome State Fault Refusal) (s : State) (g : Engine) (n : Nat) : Prop :=
  ∀ (h : Engine) (r : List Agent),
    op { s with enc := h, turns := r } = .next { s with enc := h, dec := g, draws := n, turns := r }

/-- The step of an engine whose turn comes before those of the state. -/
def State.stepOf (e : EngineId) (s : State) : Host.Outcome State Fault Refusal :=
  step { s with turns := .engine e :: s.turns }

section Yields
variable {s : State}

/-- The characters of legal digits are the same in every state. -/
theorem State.charCells_congr (u : State) (a : Nat) {ds : List Digit} (h : ∀ d ∈ ds, d.toNat < 45) :
    u.charCells a ds = s.charCells a ds := by
  induction ds generalizing a with
  | nil => rfl
  | cons d ds ih =>
    obtain ⟨hd, hds⟩ := List.forall_mem_cons.1 h
    have hchar : u.charOf d = s.charOf d := Option.some.inj ((u.charOf_legal hd).symm.trans (s.charOf_legal hd))
    rw [State.charCells, State.charCells, hchar, ih _ hds]

section Encoder
variable (hb : s.enc.status = .busy)
include hb

/-- The digits of a pair are legal, so that no free value is used for their characters (R93, R107). -/
theorem execEncPair_yields (x : BitVec 1) (hl : 2 ≤ s.enc.remaining) : ∃ g, EncoderYields (execEncPair x) s g := by
  rcases hp : pack16 (merge16 (s.readSrc .encoder s.enc.pos) (s.readSrc .encoder (s.enc.pos + 1))) with ⟨c, d, e⟩
  obtain ⟨hc, hd, he⟩ := (pack16_eq_iff _ _ _ _).1 hp
  have hlegal : ∀ x ∈ [c, d, e], x.toNat < 45 := by
    simp only [List.forall_mem_cons]
    exact ⟨by omega, by omega, by omega, nofun⟩
  refine ⟨(s.enc.writeDsts (s.charCells (3 * (s.enc.pos / 2)) [c, d, e])).advance 2, fun h n r => ?_⟩
  rw [← State.charCells_congr { s with dec := h, draws := n, turns := r } _ hlegal]
  exact execEncPair_eq (s := { s with dec := h, draws := n, turns := r }) x hb hl hp

/-- As the pair, with two digits (R94, R107). -/
theorem execEncTail_yields (hl : s.enc.remaining = 1) : ∃ g, EncoderYields execEncTail s g := by
  rcases hp : pack8 (s.readSrc .encoder s.enc.pos) with ⟨c, d⟩
  obtain ⟨hc, hd⟩ := (pack8_eq_iff _ _ _).1 hp
  have hlegal : ∀ x ∈ [c, d], x.toNat < 45 := by
    simp only [List.forall_mem_cons]
    exact ⟨by omega, by omega, nofun⟩
  refine ⟨(s.enc.writeDsts (s.charCells (3 * (s.enc.pos / 2)) [c, d])).advance 1, fun h n r => ?_⟩
  rw [← State.charCells_congr { s with dec := h, draws := n, turns := r } _ hlegal]
  exact execEncTail_eq (s := { s with dec := h, draws := n, turns := r }) hb hl hp

theorem execEncDone_yields (hl : s.enc.remaining = 0) : EncoderYields execEncDone s s.enc.finish :=
  fun h n r => execEncDone_eq (s := { s with dec := h, draws := n, turns := r }) hb hl

end Encoder

section Decoder
variable (hb : s.dec.status = .busy)
include hb

theorem execDecTriplet_yields (hl : 3 ≤ s.dec.remaining) : ∃ g n, DecoderYields execDecTriplet s g n := by
  rcases hp : s.tripletDigits s.dec.pos with q | ⟨c, d, e⟩
  · exact ⟨s.dec.raise .invalidCharacter q, s.draws, fun h r =>
      execDecTriplet_error (s := { s with enc := h, turns := r }) hb hl hp⟩
  · exact ⟨(s.dec.writeDsts (s.tripletCells (s.dec.pos / 3) (unpack16 c d e))).advance 3,
      s.draws + s.tripletDraws (unpack16 c d e), fun h r =>
      execDecTriplet_ok (s := { s with enc := h, turns := r }) hb hl hp⟩

theorem execDecTail_yields (hl : s.dec.remaining = 2) : ∃ g n, DecoderYields execDecTail s g n := by
  rcases hp : s.tailDigits s.dec.pos with q | ⟨c, d⟩
  · exact ⟨s.dec.raise .invalidCharacter q, s.draws, fun h r =>
      execDecTail_error (s := { s with enc := h, turns := r }) hb hl hp⟩
  · exact ⟨(s.dec.writeDst (2 * (s.dec.pos / 3)) (s.tailByte (unpack8 c d))).advance 2,
      s.draws + s.tailDraws (unpack8 c d), fun h r =>
      execDecTail_ok (s := { s with enc := h, turns := r }) hb hl hp⟩

theorem execDecDangle_yields (hl : s.dec.remaining = 1) : ∃ g, DecoderYields execDecDangle s g s.draws := by
  cases hp : s.params.dangle with
  | ignore => exact ⟨s.dec.advance 1, fun h r => execDecDangle_ignore (s := { s with enc := h, turns := r }) hb hl hp⟩
  | reject =>
    exact ⟨s.dec.raise .lengthError s.dec.pos, fun h r =>
      execDecDangle_reject (s := { s with enc := h, turns := r }) hb hl hp⟩

theorem execDecDone_yields (hl : s.dec.remaining = 0) : DecoderYields execDecDone s s.dec.finish s.draws :=
  fun h r => execDecDone_eq (s := { s with enc := h, turns := r }) hb hl

end Decoder

/-- Where it is BUSY, an engine whose turn comes first executes the operation of its selector (R68). -/
theorem State.stepOf_of_rc {e : EngineId} {k : Nat} {i : Instr} (hb : (s.engine e).status = .busy)
    (hk : (s.engine e).rc = k) (hd : decode .sel3 (e.dir * 4 + k) = .ok i) : s.stepOf e = exec i s := by
  have he : State.engine e { s with turns := .engine e :: s.turns } = s.engine e := by cases e <;> rfl
  exact step_engine_of_rc rfl (he ▸ hb) (he ▸ hk) hd

theorem EncoderYields.turn {i : Instr} {g : Engine} (hi : EncoderYields (exec i) s g) (hb : s.enc.status = .busy)
    {k : Nat} (hk : s.enc.rc = k) (hd : decode .sel3 (EngineId.encoder.dir * 4 + k) = .ok i) :
    EncoderYields (State.stepOf .encoder) s g := fun h n r =>
  (State.stepOf_of_rc (s := { s with dec := h, draws := n, turns := r }) (e := .encoder) hb hk hd).trans (hi h n r)

theorem DecoderYields.turn {i : Instr} {g : Engine} {n : Nat} (hi : DecoderYields (exec i) s g n)
    (hb : s.dec.status = .busy) {k : Nat} (hk : s.dec.rc = k)
    (hd : decode .sel3 (EngineId.decoder.dir * 4 + k) = .ok i) :
    DecoderYields (State.stepOf .decoder) s g n := fun h r =>
  (State.stepOf_of_rc (s := { s with enc := h, turns := r }) (e := .decoder) hb hk hd).trans (hi h r)

/-- The encoder's turn, whichever operation it is (R69, R101, R156). -/
theorem stepOf_encoder_yields (s : State) : ∃ g, EncoderYields (State.stepOf .encoder) s g := by
  by_cases hb : s.enc.status = .busy
  · obtain hl | hl | hl | hl :
        s.enc.remaining = 0 ∨ s.enc.remaining = 1 ∨ s.enc.remaining = 2 ∨ 3 ≤ s.enc.remaining := by omega
    · exact ⟨_, (execEncDone_yields hb hl).turn (i := .encDone) hb (Engine.rc_of_le_three hl (by decide)) rfl⟩
    · obtain ⟨g, hg⟩ := execEncTail_yields hb hl
      exact ⟨g, hg.turn (i := .encTail) hb (Engine.rc_of_le_three hl (by decide)) rfl⟩
    · obtain ⟨g, hg⟩ := execEncPair_yields hb 0 hl.ge
      exact ⟨g, hg.turn (i := .encPair 0) hb (Engine.rc_of_le_three hl (by decide)) rfl⟩
    · obtain ⟨g, hg⟩ := execEncPair_yields hb 1 (by omega)
      exact ⟨g, hg.turn (i := .encPair 1) hb (Engine.rc_of_three_le hl) rfl⟩
  · exact ⟨s.enc, fun h n r => step_engine_idle (e := .encoder) rfl hb⟩

/-- The decoder's turn, whichever operation it is (R70, R110, R156). -/
theorem stepOf_decoder_yields (s : State) : ∃ g n, DecoderYields (State.stepOf .decoder) s g n := by
  by_cases hb : s.dec.status = .busy
  · obtain hl | hl | hl | hl :
        s.dec.remaining = 0 ∨ s.dec.remaining = 1 ∨ s.dec.remaining = 2 ∨ 3 ≤ s.dec.remaining := by omega
    · exact ⟨_, _, (execDecDone_yields hb hl).turn (i := .decDone) hb (Engine.rc_of_le_three hl (by decide)) rfl⟩
    · obtain ⟨g, hg⟩ := execDecDangle_yields hb hl
      exact ⟨g, _, hg.turn (i := .decDangle) hb (Engine.rc_of_le_three hl (by decide)) rfl⟩
    · obtain ⟨g, n, hg⟩ := execDecTail_yields hb hl
      exact ⟨g, n, hg.turn (i := .decTail) hb (Engine.rc_of_le_three hl (by decide)) rfl⟩
    · obtain ⟨g, n, hg⟩ := execDecTriplet_yields hb hl
      exact ⟨g, n, hg.turn (i := .decTriplet) hb (Engine.rc_of_three_le hl) rfl⟩
  · exact ⟨s.dec, s.draws, fun h r => step_engine_idle (e := .decoder) rfl hb⟩

end Yields

theorem runSteps_two {s t u : State} (ht : step s = .next t) (hu : step t = .next u) : runSteps 2 s = .next u := by
  simp only [runSteps, ht, hu]

/-- Settles O49: in either order the encoder's turn yields the one engine and the decoder's the other. -/
theorem engineStepsCommute : Obligations.EngineStepsCommute := by
  intro s r
  obtain ⟨enc, henc⟩ := stepOf_encoder_yields s
  obtain ⟨dec, n, hdec⟩ := stepOf_decoder_yields s
  have encoderFirst := runSteps_two (henc s.dec s.draws (.engine .decoder :: r)) (hdec enc r)
  have decoderFirst := runSteps_two (hdec s.enc (.engine .encoder :: r)) (henc dec n r)
  exact encoderFirst.trans decoderFirst.symm

end Sys2Proof.Machine
end

section
/-! SUPPORT. The turn of a BUSY engine makes progress, so that every call ends (R171). -/

namespace Sys2Proof.Machine

/-- From `g` to `g'` an engine has made progress (R171): it is BUSY with the cursor further up, within `LEN`, or it has
ended the call where the cursor was. -/
def Engine.Progress (g g' : Engine) : Prop :=
  (g'.status = .busy ∧ g.pos < g'.pos ∧ g'.pos ≤ g'.len) ∨
  ((g'.status = .done ∨ g'.status = .error) ∧ g'.pos = g.pos)

/-- Consuming `k` of the elements that are left moves the cursor up, and not past them. -/
theorem Engine.Progress.group {g : Engine} {k : Nat} (ws : List Host.Cell) (hb : g.status = .busy) (h0 : 0 < k)
    (hk : k ≤ g.remaining) : g.Progress ((g.writeDsts ws).advance k) := by
  unfold Engine.remaining at hk
  refine .inl ⟨by simpa using hb, by simpa using h0, ?_⟩
  rw [Engine.advance_pos, Engine.advance_len, Engine.writeDsts_pos, Engine.writeDsts_len]
  omega

theorem Engine.Progress.finish (g : Engine) : g.Progress g.finish := .inr ⟨.inl rfl, rfl⟩

theorem Engine.Progress.raise (g : Engine) (k : ErrKind) (q : Nat) : g.Progress (g.raise k q) :=
  .inr ⟨.inr rfl, rfl⟩

/-- `op` completes in `s`, and engine `e` makes progress by it. -/
def State.ProgressBy (e : EngineId) (op : State → Host.Outcome State Fault Refusal) (s : State) : Prop :=
  ∃ t, op s = .next t ∧ (s.engine e).Progress (t.engine e)

section Operations
variable {s : State}

section Encoder
variable (hb : s.enc.status = .busy)
include hb

theorem execEncPair_progress (x : BitVec 1) (hl : 2 ≤ s.enc.remaining) : s.ProgressBy .encoder (exec (.encPair x)) :=
  ⟨_, execEncPair_eq x hb hl rfl, .group [(_, _), (_, _), (_, _)] hb (by decide) hl⟩

theorem execEncTail_progress (hl : s.enc.remaining = 1) : s.ProgressBy .encoder (exec .encTail) :=
  ⟨_, execEncTail_eq hb hl rfl, .group [(_, _), (_, _)] hb (by decide) hl.ge⟩

theorem execEncDone_progress (hl : s.enc.remaining = 0) : s.ProgressBy .encoder (exec .encDone) :=
  ⟨_, execEncDone_eq hb hl, .finish s.enc⟩

end Encoder

section Decoder
variable (hb : s.dec.status = .busy)
include hb

/-- A triplet is consumed, or a miss in it ends the call (R111). -/
theorem execDecTriplet_progress (hl : 3 ≤ s.dec.remaining) : s.ProgressBy .decoder (exec .decTriplet) := by
  rcases hp : s.tripletDigits s.dec.pos with q | ⟨c, d, e⟩
  · exact ⟨_, execDecTriplet_error hb hl hp, .raise s.dec _ q⟩
  · exact ⟨_, execDecTriplet_ok hb hl hp, .group [(_, _), (_, _)] hb (by decide) hl⟩

/-- The two last characters are consumed, or a miss in them ends the call (R112). -/
theorem execDecTail_progress (hl : s.dec.remaining = 2) : s.ProgressBy .decoder (exec .decTail) := by
  rcases hp : s.tailDigits s.dec.pos with q | ⟨c, d⟩
  · exact ⟨_, execDecTail_error hb hl hp, .raise s.dec _ q⟩
  · exact ⟨_, execDecTail_ok hb hl hp, .group [(_, _)] hb (by decide) hl.ge⟩

/-- The dangling character is passed over, or it ends the call (R113). -/
theorem execDecDangle_progress (hl : s.dec.remaining = 1) : s.ProgressBy .decoder (exec .decDangle) := by
  cases hp : s.params.dangle with
  | ignore => exact ⟨_, execDecDangle_ignore hb hl hp, .group [] hb (by decide) hl.ge⟩
  | reject => exact ⟨_, execDecDangle_reject hb hl hp, .raise s.dec _ _⟩

theorem execDecDone_progress (hl : s.dec.remaining = 0) : s.ProgressBy .decoder (exec .decDone) :=
  ⟨_, execDecDone_eq hb hl, .finish s.dec⟩

end Decoder

end Operations

section Turns
variable {s : State} {r : List Agent}

/-- A step that runs an operation makes the progress of that operation. -/
theorem State.ProgressBy.of_exec {e : EngineId} {i : Instr} (hstep : step s = exec i { s with turns := r })
    (h : State.ProgressBy e (exec i) { s with turns := r }) : s.ProgressBy e step := by
  obtain ⟨t, hnext, hprogress⟩ := h
  have hengine : State.engine e { s with turns := r } = s.engine e := by cases e <;> rfl
  exact ⟨t, hstep.trans hnext, hengine ▸ hprogress⟩

/-- The encoder's turn, whichever of its operations the count of bytes left selects (R69, R101). -/
theorem step_encoder_progress (ht : s.turns = .engine .encoder :: r) (hb : s.enc.status = .busy) :
    s.ProgressBy .encoder step := by
  obtain ⟨hdone, htail, hpair, hpairs, -⟩ := encoderTurnRunsSelectedOperation s r ht
  obtain hl | hl | hl | hl : s.enc.len - s.enc.pos = 0 ∨ s.enc.len - s.enc.pos = 1 ∨ s.enc.len - s.enc.pos = 2 ∨
      3 ≤ s.enc.len - s.enc.pos := by omega
  · exact .of_exec (hdone hb hl) (execEncDone_progress hb hl)
  · exact .of_exec (htail hb hl) (execEncTail_progress hb hl)
  · exact .of_exec (hpair hb hl) (execEncPair_progress (s := { s with turns := r }) hb 0 hl.ge)
  · exact .of_exec (hpairs hb hl) (execEncPair_progress (s := { s with turns := r }) hb 1 (Nat.le_of_succ_le hl))

/-- The decoder's turn, whichever of its operations the count of characters left selects (R70, R110). -/
theorem step_decoder_progress (ht : s.turns = .engine .decoder :: r) (hb : s.dec.status = .busy) :
    s.ProgressBy .decoder step := by
  obtain ⟨hdone, hdangle, htail, htriplet, -⟩ := decoderTurnRunsSelectedOperation s r ht
  obtain hl | hl | hl | hl : s.dec.len - s.dec.pos = 0 ∨ s.dec.len - s.dec.pos = 1 ∨ s.dec.len - s.dec.pos = 2 ∨
      3 ≤ s.dec.len - s.dec.pos := by omega
  · exact .of_exec (hdone hb hl) (execDecDone_progress hb hl)
  · exact .of_exec (hdangle hb hl) (execDecDangle_progress hb hl)
  · exact .of_exec (htail hb hl) (execDecTail_progress hb hl)
  · exact .of_exec (htriplet hb hl) (execDecTriplet_progress hb hl)

end Turns

/-- Settles O50: the turn's operation makes progress, and the turns after it are left as they are. -/
theorem busyEngineProgresses : Obligations.BusyEngineProgresses := by
  intro s e r ht hb
  have hprogress : s.ProgressBy e step := by
    cases e with
    | encoder => exact step_encoder_progress ht hb
    | decoder => exact step_decoder_progress ht hb
  obtain ⟨t, hstep, ht'⟩ := hprogress
  obtain ⟨hframe, -⟩ := step_engine_own ht hstep
  exact ⟨t, hstep, congrArg State.turns hframe, ht'⟩

/-- A step that leaves an engine BUSY leaves the length of its input (R54). -/
theorem step_busy_len {s t : State} {e : EngineId} (hb : (s.engine e).status = .busy) (h : step s = .next t)
    (hb' : (t.engine e).status = .busy) : (t.engine e).len = (s.engine e).len := by
  obtain ⟨-, hlen⟩ | hreset := inputImmutableDuringCall s t e hb h
  · exact hlen
  · cases (congrArg Engine.status hreset).symm.trans hb'

theorem runSteps_succ {s t : State} (h : step s = .next t) (k : Nat) : runSteps (k + 1) s = runSteps k t := by
  simp only [runSteps, h]

/-- A BUSY engine with at most `n` elements left, given `n + 1` turns, ends its call in at most that many steps: each
turn before the last leaves fewer elements. -/
theorem busy_call_ends {e : EngineId} {r : List Agent} {n : Nat} {s : State} (hb : (s.engine e).status = .busy)
    (hn : (s.engine e).remaining ≤ n) (ht : s.turns = List.replicate (n + 1) (.engine e) ++ r) :
    ∃ k t, k ≤ n + 1 ∧ runSteps k s = .next t ∧
      ((t.engine e).status = .done ∨ (t.engine e).status = .error) := by
  induction n generalizing s with
  | zero =>
    obtain ⟨t, hstep, -, ⟨hb', hpos, hle⟩ | ⟨hend, -⟩⟩ := busyEngineProgresses s e _ ht hb
    · rw [step_busy_len hb hstep hb'] at hle
      unfold Engine.remaining at hn
      omega
    · exact ⟨1, t, le_rfl, runSteps_succ hstep 0, hend⟩
  | succ n ih =>
    obtain ⟨t, hstep, ht', ⟨hb', hpos, hle⟩ | ⟨hend, -⟩⟩ := busyEngineProgresses s e _ ht hb
    · have hlen := step_busy_len hb hstep hb'
      have hless : (t.engine e).remaining ≤ n := by
        unfold Engine.remaining at hn ⊢
        omega
      obtain ⟨k, v, hk, hrun, hend⟩ := ih hb' hless ht'
      exact ⟨k + 1, v, Nat.succ_le_succ hk, (runSteps_succ hstep k).trans hrun, hend⟩
    · exact ⟨1, t, Nat.le_add_left 1 _, runSteps_succ hstep 0, hend⟩

/-- Settles O51: at the start of a call at most `LEN` elements are left. -/
theorem everyCallEnds : Obligations.EveryCallEnds :=
  fun _ _ _ hb _ ht => busy_call_ends hb (Nat.sub_le _ _) ht

end Sys2Proof.Machine
end

section
/-! SUPPORT. The two moves of the host that may meet a call in progress: START and reset (R160, R165). -/

namespace Sys2Proof.Machine

/-- START on a BUSY engine is refused by name (R165, log 11). -/
theorem State.startCall_of_busy {s : State} {e : EngineId} (hb : (s.engine e).status = .busy) :
    s.startCall e = .refused (.startWhileBusy e) :=
  if_pos hb

/-- Settles O34, by the law of START on a BUSY engine. -/
theorem startWhileBusyRefused : Obligations.StartWhileBusyRefused :=
  fun _ => ⟨State.startCall_of_busy (e := .encoder), State.startCall_of_busy (e := .decoder)⟩

theorem State.applyReset_engine (s : State) (e : EngineId) : s.applyReset.engine e = Engine.reset := by
  cases e <;> rfl

/-- After a reset the buffers list no element, so that every read gives the free value of the new epoch (R34, R160). -/
theorem State.applyReset_reads (s : State) (e : EngineId) (i : Nat) :
    s.applyReset.readSrc e i = Config.unwrittenElement (s.epoch + 1) (srcSpace e) i ∧
    s.applyReset.readDst e i = Config.unwrittenElement (s.epoch + 1) (dstSpace e) i := by
  cases e <;> exact ⟨rfl, rfl⟩

/-- Settles O40: an engine right after reset is IDLE, so that its turn passes. -/
theorem resetReachesResetState : Obligations.ResetReachesResetState := by
  intro s
  refine ⟨s.applyReset, rfl, fun e => ?_, rfl, rfl, rfl, fun e r => step_engine_idle rfl ?_⟩
  · rw [State.applyReset_engine]
    exact ⟨rfl, rfl, rfl, rfl, rfl, s.applyReset_reads e⟩
  · cases e <;> exact nofun

end Sys2Proof.Machine
end
